-- ==== Sys2Proof/Word.lean ====
section
/-! DEFINITION. The words of the block: 32-bit register words (00_scope.md R7, R8) and the bytes of a host payload. -/

namespace Sys2Proof

/-- A register word: unsigned, 32 bits, bit 0 the least significant (R7). -/
abbrev Word := BitVec 32

/-- One byte: of a register's byte lanes (R47) or of a host payload (R152). -/
abbrev Byte := BitVec 8

end Sys2Proof
end

