-- ==== Sys2Proof/Config.lean ====
section
/-! DEFINITION. The names the spec fixes (registers, PLLs, sub-blocks, refusal reasons, host operations, agents), the
OPEN parameters of the part (00_scope.md R6), and the free values: opaque constants, with no body, for what the spec
leaves to the environment. -/

namespace Sys2Proof

/-- The eleven words of the register block, in order (10_state.md R15). -/
inductive Reg where
  | crystal | corepll | rsvd08 | ddrpll0 | ddrpll1 | rsvd14 | rsvd18 | ethpll0 | ethpll1 | clksel | rstctl
  deriving DecidableEq, Repr, Inhabited

/-- The three PLLs (R1). -/
inductive PllId where
  | core | ddr | eth
  deriving DecidableEq, Repr, Inhabited

/-- The two PLLs that have an output-enable word cfg1(p) (10_state.md R20). -/
inductive OePll where
  | ddr | eth
  deriving DecidableEq, Repr, Inhabited

/-- The five sub-blocks behind a reset line (10_state.md R24). -/
inductive SubBlock where
  | ddrCtrl | ddrAxi | ddrAhb | ddrPhy | eth
  deriving DecidableEq, Repr, Inhabited

/-- Why a form is refused (60_exceptions.md R165). A refusal is a mark in the state, not the end of the machine. -/
inductive RefuseReason where
  /-- BUS16 with Z other than 000 (R72 step 1). -/
  | badDescriptor
  /-- BUS16 with byte enables other than 1111 (R72 step 2, R48). -/
  | badWidth
  /-- An offset that is no multiple of 4 (R72 step 3, R49). -/
  | misaligned
  /-- An offset of 0x2C or above (R72 step 4, R46). -/
  | offsetOutOfBlock
  /-- A SEQ96 operation code outside the map (R76). -/
  | badOpcode
  /-- A SEQ96 field that the operation does not use and that is not zero (R76). -/
  | badOperand
  /-- A program without its one final RET (R134). -/
  | noFinalRet
  /-- `seq.pc` is no index of the program (R140). -/
  | pcOutOfRange
  /-- A second HOST_WRITE("on") (R154). -/
  | reinit
  deriving DecidableEq, Repr, Inhabited

/-- The four lifecycle operations of the host (45_sequencer.md R150 to R153). A payload is a byte string. -/
inductive HostOp where
  | init
  | read
  | write (payload : List Byte)
  | shutdown
  deriving DecidableEq, Repr, Inhabited

/-- Which agent moves (00_scope.md R11), or what the environment does to the machine.
`port h d` presents a BUS16 descriptor at the block's bus port from outside SEQ (log 8: DESIGN CHOICE); `hostReturn` is
the return of a pending HOST_WRITE("on") (R152, R156). -/
inductive Turn where
  | seq
  | bus
  | port (h : BitVec 16) (d : Word)
  | pll (p : PllId)
  | xtal
  | rstobs (b : SubBlock)
  | ddrprop
  | host (op : HostOp)
  | hostReturn
  deriving DecidableEq, Repr, Inhabited

/-- The part of a PLL's configuration that `pllCanLock` looks at (41_pll_lock_detector.md R106). -/
structure LockCfg where
  divr  : BitVec 6
  divf  : BitVec 9
  divq  : BitVec 3
  range : BitVec 3
  fse   : Bool
  deriving DecidableEq, Repr, Inhabited

/-- The two positions of an output-enable bit (10_state.md R20, R21). -/
inductive CkeBit where
  | bit24 | bit31
  deriving DecidableEq, Repr, Inhabited

/-- The OPEN parameters of the part (00_scope.md R6). They are arguments of the model: State carries them (log 4), no
step writes them, and a statement about every state quantifies over them. -/
structure Params where
  /-- `BASE`: the physical address of the block (20_memory.md R45). -/
  base : Nat
  /-- `WBUF_DEPTH`: how many posted writes the buffer holds (R52). -/
  wbufDepth : Nat
  /-- Its legal values are the integers from 1 on (R6), so a part with depth 0 cannot be written. -/
  wbufDepth_pos : 0 < wbufDepth
  /-- `RESET_PROP_NOPS`: the bound on DDR reset propagation, in retired no-ops (R124). -/
  resetPropNops : Nat
  /-- `CKE_BIT_ETH`: which bit of EthPLLConfig1 enables the output (R21). -/
  ckeBitEth : CkeBit
  deriving DecidableEq, Repr

/-- `draw()` (00_scope.md R9): an unconstrained word, a fresh one for each index. FREE VALUE (log 3). -/
opaque Config.freeWord : Nat → Word

/-- Which agent moves when nothing in the state says so: any order is allowed (R12). FREE VALUE (log 1). -/
opaque Config.schedule : Nat → Turn

/-- `pllCanLock p c` for a configuration other than the preset of `p` (R106). FREE VALUE (log 5). -/
opaque Config.lockable : PllId → LockCfg → Bool

end Sys2Proof
end

