-- ==== Sys2Proof/Syntax.lean ====
section
/-! DEFINITION. The instructions: one constructor per row of spec/opcode_table.json. -/

namespace Sys2Proof

/-- The operations of the block. The first 22 are the bus transactions the block decodes (30_encoding.md R71, R72),
a write with its data word; the last ten are the sequencer's operations (R73, R74). -/
inductive Instr where
  | rdCrystal
  | wrCrystal (v : Word)
  | rdCorepll
  | wrCorepll (v : Word)
  | rdRsvd08
  | wrRsvd08 (v : Word)
  | rdDdrpll0
  | wrDdrpll0 (v : Word)
  | rdDdrpll1
  | wrDdrpll1 (v : Word)
  | rdRsvd14
  | wrRsvd14 (v : Word)
  | rdRsvd18
  | wrRsvd18 (v : Word)
  | rdEthpll0
  | wrEthpll0 (v : Word)
  | rdEthpll1
  | wrEthpll1 (v : Word)
  | rdClksel
  | wrClksel (v : Word)
  | rdRstctl
  | wrRstctl (v : Word)
  | rd (r : Reg)
  | wr (r : Reg) (v : Word)
  | modify (r : Reg) (m v : Word)
  | poll (r : Reg) (m v : Word)
  | fence
  | nop
  | delay (n : Nat)
  | notify (rate : Word)
  | exitIfEmu
  | ret
  deriving DecidableEq, Repr, Inhabited

end Sys2Proof
end

