-- ==== Sys2Proof/WellFormed.lean ====
section
/-! DEFINITION. Well-formedness: of one instruction as syntax, and of the shape of a program. -/

namespace Sys2Proof

/-- An instruction whose operands fit its encoding. Every operand's type fits by itself but the count of DELAY, an
unsigned number from 0 to 65535 (30_encoding.md R75). -/
def Instr.wf : Instr → Bool
  | .delay n => decide (n < 65536)
  | .rdCrystal | .wrCrystal _ | .rdCorepll | .wrCorepll _ | .rdRsvd08 | .wrRsvd08 _
  | .rdDdrpll0 | .wrDdrpll0 _ | .rdDdrpll1 | .wrDdrpll1 _ | .rdRsvd14 | .wrRsvd14 _
  | .rdRsvd18 | .wrRsvd18 _ | .rdEthpll0 | .wrEthpll0 _ | .rdEthpll1 | .wrEthpll1 _
  | .rdClksel | .wrClksel _ | .rdRstctl | .wrRstctl _ | .rd _ | .wr _ _
  | .modify _ _ _ | .poll _ _ _ | .fence | .nop | .notify _ | .exitIfEmu
  | .ret => true

/-- A sequencer operation (format SEQ96), as opposed to a bus transaction (format BUS16). -/
def Instr.isSeq : Instr → Bool
  | .rd _ | .wr _ _ | .modify _ _ _ | .poll _ _ _ | .fence | .nop
  | .delay _ | .notify _ | .exitIfEmu | .ret => true
  | .rdCrystal | .wrCrystal _ | .rdCorepll | .wrCorepll _ | .rdRsvd08 | .wrRsvd08 _
  | .rdDdrpll0 | .wrDdrpll0 _ | .rdDdrpll1 | .wrDdrpll1 _ | .rdRsvd14 | .wrRsvd14 _
  | .rdRsvd18 | .wrRsvd18 _ | .rdEthpll0 | .wrEthpll0 _ | .rdEthpll1 | .wrEthpll1 _
  | .rdClksel | .wrClksel _ | .rdRstctl | .wrRstctl _ => false

/-- The last operation is RET and no other RET precedes it (45_sequencer.md R134). -/
def endsInOneRet : List Instr → Bool
  | [] => false
  | [i] => i == .ret
  | i :: is => i != .ret && endsInOneRet is

/-- A program of sequencer operations that R134 calls well formed: each fits its encoding and is a sequencer's, and
the one RET stands last. -/
def programWf (is : List Instr) : Bool :=
  is.all (fun i => i.isSeq && i.wf) && endsInOneRet is

end Sys2Proof
end

