-- ==== Sys2Proof/Decode.lean ====
section
/-! DEFINITION. The decoders of the two formats (30_encoding.md R71 to R77), total and refusing by name; the encoders,
from the same tables; the check of a program at load (45_sequencer.md R134); the firmware's program `P_INIT` (R145). -/

namespace Sys2Proof

/-- The three words of a SEQ96 operation (30_encoding.md R73). -/
structure SeqWords where
  w0 : Word
  w1 : Word
  w2 : Word
  deriving DecidableEq, Repr, Inhabited

/-- An encoded instruction: a bus transaction's header and data word (R71), or the three words of a sequencer
operation (R73). There is no other length (R77). -/
inductive Encoded where
  | bus16 (h : BitVec 16) (d : Word)
  | seq96 (q : SeqWords)
  deriving DecidableEq, Repr, Inhabited

/-! ### Offsets -/

/-- The byte offset of a register word: word `i` is at `4*i` (10_state.md R15, R16). -/
def Reg.off : Reg → BitVec 8
  | .crystal => 0x00#8
  | .corepll => 0x04#8
  | .rsvd08  => 0x08#8
  | .ddrpll0 => 0x0C#8
  | .ddrpll1 => 0x10#8
  | .rsvd14  => 0x14#8
  | .rsvd18  => 0x18#8
  | .ethpll0 => 0x1C#8
  | .ethpll1 => 0x20#8
  | .clksel  => 0x24#8
  | .rstctl  => 0x28#8

/-- The word at a byte offset. A misaligned offset is refused first (R72 step 3), then one of 0x2C or above (step 4):
the aligned offsets below 0x2C are exactly the eleven listed. -/
def regOfOff (off : BitVec 8) : Except RefuseReason Reg :=
  if off.toNat % 4 ≠ 0 then .error .misaligned
  else
    match off.toNat with
    | 0x00 => .ok .crystal
    | 0x04 => .ok .corepll
    | 0x08 => .ok .rsvd08
    | 0x0C => .ok .ddrpll0
    | 0x10 => .ok .ddrpll1
    | 0x14 => .ok .rsvd14
    | 0x18 => .ok .rsvd18
    | 0x1C => .ok .ethpll0
    | 0x20 => .ok .ethpll1
    | 0x24 => .ok .clksel
    | 0x28 => .ok .rstctl
    | _ => .error .offsetOutOfBlock

/-! ### BUS16 -/

/-- The read transaction of a word (R72 step 5). -/
def Instr.ofRead : Reg → Instr
  | .crystal => .rdCrystal
  | .corepll => .rdCorepll
  | .rsvd08  => .rdRsvd08
  | .ddrpll0 => .rdDdrpll0
  | .ddrpll1 => .rdDdrpll1
  | .rsvd14  => .rdRsvd14
  | .rsvd18  => .rdRsvd18
  | .ethpll0 => .rdEthpll0
  | .ethpll1 => .rdEthpll1
  | .clksel  => .rdClksel
  | .rstctl  => .rdRstctl

/-- The write transaction of a word (R72 step 5). -/
def Instr.ofWrite (r : Reg) (v : Word) : Instr :=
  match r with
  | .crystal => .wrCrystal v
  | .corepll => .wrCorepll v
  | .rsvd08  => .wrRsvd08 v
  | .ddrpll0 => .wrDdrpll0 v
  | .ddrpll1 => .wrDdrpll1 v
  | .rsvd14  => .wrRsvd14 v
  | .rsvd18  => .wrRsvd18 v
  | .ethpll0 => .wrEthpll0 v
  | .ethpll1 => .wrEthpll1 v
  | .clksel  => .wrClksel v
  | .rstctl  => .wrRstctl v

/-- BUS16 decode (R72), its checks in their order; the data word of a read is ignored (R71; log 19). -/
def decodeBus (h : BitVec 16) (d : Word) : Except RefuseReason Instr :=
  if h.extractLsb' 12 3 ≠ 0#3 then .error .badDescriptor
  else if h.extractLsb' 8 4 ≠ 0xF#4 then .error .badWidth
  else
    match regOfOff (h.extractLsb' 0 8) with
    | .error e => .error e
    | .ok r => .ok (if h.getLsbD 15 then Instr.ofWrite r d else Instr.ofRead r)

/-- The header of a transaction: WE, Z = 000, BE = 1111, OFF (R71). -/
def busHeader (we : Bool) (r : Reg) : BitVec 16 :=
  BitVec.ofBool we ++ 0#3 ++ 0xF#4 ++ r.off

/-! ### SEQ96 -/

/-- Refuse with BAD_OPERAND unless the fields that the operation does not use are zero (R76). -/
def unusedZero (zero : Bool) (i : Except RefuseReason Instr) : Except RefuseReason Instr :=
  if zero then i else .error .badOperand

/-- A register operation: the offset is checked last (R76; log 12: DESIGN CHOICE on the order). -/
def withReg (off : BitVec 8) (k : Reg → Instr) : Except RefuseReason Instr :=
  match regOfOff off with
  | .error e => .error e
  | .ok r => .ok (k r)

/-- SEQ96 decode (R73 to R76). -/
def decodeSeq (q : SeqWords) : Except RefuseReason Instr :=
  let opc := q.w0.extractLsb' 24 8
  let off := q.w0.extractLsb' 16 8
  let aux := q.w0.extractLsb' 0 16
  match opc.toNat with
  | 0x01 => unusedZero (aux == 0 && q.w1 == 0 && q.w2 == 0) (withReg off .rd)
  | 0x02 => unusedZero (aux == 0 && q.w1 == 0) (withReg off (.wr · q.w2))
  | 0x03 => unusedZero (aux == 0) (withReg off (.modify · q.w1 q.w2))
  | 0x04 => unusedZero (aux == 0) (withReg off (.poll · q.w1 q.w2))
  | 0x05 => unusedZero (off == 0 && aux == 0 && q.w1 == 0 && q.w2 == 0) (.ok .fence)
  | 0x06 => unusedZero (off == 0 && aux == 0 && q.w1 == 0 && q.w2 == 0) (.ok .nop)
  | 0x07 => unusedZero (off == 0 && q.w1 == 0 && q.w2 == 0) (.ok (.delay aux.toNat))
  | 0x08 => unusedZero (off == 0 && aux == 0 && q.w1 == 0) (.ok (.notify q.w2))
  | 0x09 => unusedZero (off == 0 && aux == 0 && q.w1 == 0 && q.w2 == 0) (.ok .exitIfEmu)
  | 0x0A => unusedZero (off == 0 && aux == 0 && q.w1 == 0 && q.w2 == 0) (.ok .ret)
  | _ => .error .badOpcode

/-- Word W0: OPC, OFF, AUX from the top (R73). -/
def seqW0 (opc off : BitVec 8) (aux : BitVec 16) : Word := opc ++ off ++ aux

/-! ### Both formats -/

/-- Decode of an encoded instruction (R72, R76). -/
def decode : Encoded → Except RefuseReason Instr
  | .bus16 h d => decodeBus h d
  | .seq96 q => decodeSeq q

/-- The words of an instruction, from the tables of R71, R73 and R74. The data word of a read is zero (R71). -/
def encode : Instr → Encoded
  | .rdCrystal   => .bus16 (busHeader false .crystal) 0
  | .wrCrystal v => .bus16 (busHeader true .crystal) v
  | .rdCorepll   => .bus16 (busHeader false .corepll) 0
  | .wrCorepll v => .bus16 (busHeader true .corepll) v
  | .rdRsvd08    => .bus16 (busHeader false .rsvd08) 0
  | .wrRsvd08 v  => .bus16 (busHeader true .rsvd08) v
  | .rdDdrpll0   => .bus16 (busHeader false .ddrpll0) 0
  | .wrDdrpll0 v => .bus16 (busHeader true .ddrpll0) v
  | .rdDdrpll1   => .bus16 (busHeader false .ddrpll1) 0
  | .wrDdrpll1 v => .bus16 (busHeader true .ddrpll1) v
  | .rdRsvd14    => .bus16 (busHeader false .rsvd14) 0
  | .wrRsvd14 v  => .bus16 (busHeader true .rsvd14) v
  | .rdRsvd18    => .bus16 (busHeader false .rsvd18) 0
  | .wrRsvd18 v  => .bus16 (busHeader true .rsvd18) v
  | .rdEthpll0   => .bus16 (busHeader false .ethpll0) 0
  | .wrEthpll0 v => .bus16 (busHeader true .ethpll0) v
  | .rdEthpll1   => .bus16 (busHeader false .ethpll1) 0
  | .wrEthpll1 v => .bus16 (busHeader true .ethpll1) v
  | .rdClksel    => .bus16 (busHeader false .clksel) 0
  | .wrClksel v  => .bus16 (busHeader true .clksel) v
  | .rdRstctl    => .bus16 (busHeader false .rstctl) 0
  | .wrRstctl v  => .bus16 (busHeader true .rstctl) v
  | .rd r         => .seq96 ⟨seqW0 0x01#8 r.off 0, 0, 0⟩
  | .wr r v       => .seq96 ⟨seqW0 0x02#8 r.off 0, 0, v⟩
  | .modify r m v => .seq96 ⟨seqW0 0x03#8 r.off 0, m, v⟩
  | .poll r m v   => .seq96 ⟨seqW0 0x04#8 r.off 0, m, v⟩
  | .fence        => .seq96 ⟨seqW0 0x05#8 0 0, 0, 0⟩
  | .nop          => .seq96 ⟨seqW0 0x06#8 0 0, 0, 0⟩
  | .delay n      => .seq96 ⟨seqW0 0x07#8 0 (BitVec.ofNat 16 n), 0, 0⟩
  | .notify rate  => .seq96 ⟨seqW0 0x08#8 0 0, 0, rate⟩
  | .exitIfEmu    => .seq96 ⟨seqW0 0x09#8 0 0, 0, 0⟩
  | .ret          => .seq96 ⟨seqW0 0x0A#8 0 0, 0, 0⟩

/-- Lay out the bits `w` of an instruction, numbered from bit 0 of its first word, as words for the decoder. The row of
a bus transaction has 16 bits (its header), or 48 with the data word; the row of a sequencer operation has 96. Every bit
from `nbits` up is zero (log 17). -/
def layoutBits (nbits w : Nat) : Encoded :=
  let x := w % 2 ^ nbits
  if nbits ≤ 16 ∨ nbits = 48 then
    .bus16 (BitVec.ofNat 16 x) (BitVec.ofNat 32 (x / 2 ^ 16))
  else
    .seq96 ⟨BitVec.ofNat 32 x, BitVec.ofNat 32 (x / 2 ^ 32), BitVec.ofNat 32 (x / 2 ^ 64)⟩

/-- What the decoder reads from the bits of an opcode-table row (log 17). -/
def decodeTableWord (nbits w : Nat) : Option Instr :=
  match decode (layoutBits nbits w) with
  | .ok i => some i
  | .error _ => none

/-! ### Programs -/

/-- Decode every operation of a program; the first that fails gives the reason (45_sequencer.md R134). -/
def decodeAll : List SeqWords → Except RefuseReason (List Instr)
  | [] => .ok []
  | q :: qs =>
    match decodeSeq q with
    | .error e => .error e
    | .ok i =>
      match decodeAll qs with
      | .error e => .error e
      | .ok is => .ok (i :: is)

/-- The check of a program when it is loaded: every operation decodes, the last is RET, no other RET precedes it
(R134). A failing operation's reason comes before NO_FINAL_RET. -/
def checkProgram (qs : List SeqWords) : Except RefuseReason (List Instr) :=
  match decodeAll qs with
  | .error e => .error e
  | .ok is => if endsInOneRet is then .ok is else .error .noFinalRet

/-- `P_INIT`, the firmware's bring-up program, word for word from the table of 45_sequencer.md R145. -/
def pInit : List SeqWords :=
  [⟨0x09000000#32, 0, 0⟩,
   ⟨0x08000000#32, 0, 0x3B9ACA00#32⟩,
   ⟨0x02240000#32, 0, 0x00000001#32⟩,
   ⟨0x02040000#32, 0, 0x02110EC0#32⟩,
   ⟨0x04040000#32, 0x80000000#32, 0x80000000#32⟩,
   ⟨0x02240000#32, 0, 0x00000000#32⟩,
   ⟨0x02280000#32, 0, 0x00000000#32⟩,
   ⟨0x02100000#32, 0, 0x00000000#32⟩,
   ⟨0x020C0000#32, 0, 0x02110DC0#32⟩,
   ⟨0x040C0000#32, 0x80000000#32, 0x80000000#32⟩,
   ⟨0x02100000#32, 0, 0x80000000#32⟩,
   ⟨0x02280000#32, 0, 0x00000001#32⟩,
   ⟨0x05000000#32, 0, 0⟩,
   ⟨0x02280000#32, 0, 0x0000000F#32⟩,
   ⟨0x05000000#32, 0, 0⟩,
   ⟨0x07000100#32, 0, 0⟩,
   ⟨0x02200000#32, 0, 0x00000000#32⟩,
   ⟨0x021C0000#32, 0, 0x02128EC0#32⟩,
   ⟨0x041C0000#32, 0x80000000#32, 0x80000000#32⟩,
   ⟨0x02200000#32, 0, 0x80000000#32⟩,
   ⟨0x02280000#32, 0, 0x0000002F#32⟩,
   ⟨0x05000000#32, 0, 0⟩,
   ⟨0x0A000000#32, 0, 0⟩]

end Sys2Proof
end

