-- ==== Sys2Proof/Machine/State.lean ====
section
/-! DEFINITION. Everything the spec gives the machine, as plain data (10_state.md), and the state after reset. -/

namespace Sys2Proof.Machine

/-- Why the machine itself would stop with a fault. There is no such reason: the block has no trap (60_exceptions.md
R168), and what the spec calls a fault is a record in `State.faults`, after which the step completes and every agent
goes on (R161). Nothing raises it; safe (log 16). -/
inductive Fault where
  deriving DecidableEq, Repr

/-- Why the machine gives an instruction no meaning. What the spec calls a refusal is the mark `State.refused` (R165),
not this type (log 16). -/
inductive Refusal where
  /-- Raised by `exec` for an instruction that has no meaning yet; no arm raises it now. Safe. -/
  | notModelled (mnemonic : String)
  deriving DecidableEq, Repr

/-! ### The register block and its hidden state -/

/-- A PLL's stored configuration (10_state.md R18) and the output of its lock detector (R19). -/
structure Pll where
  divr   : BitVec 6
  divf   : BitVec 9
  divq   : BitVec 3
  range  : BitVec 3
  bypass : Bool
  fse    : Bool
  lock   : Bool
  deriving DecidableEq, Repr

/-- The two stored bits of an output-enable word cfg1(p) (R20). -/
structure OeBits where
  b31 : Bool
  b24 : Bool
  deriving DecidableEq, Repr

/-- One bit per sub-block: the reset lines (R24) or what the sub-blocks have observed of them (R26). `true` is
released. -/
structure Lines where
  ddrCtrl : Bool
  ddrAxi  : Bool
  ddrAhb  : Bool
  ddrPhy  : Bool
  eth     : Bool
  deriving DecidableEq, Repr

/-- Reset de-assertion through the DDR sub-block (R27). -/
inductive DdrProp where
  | idle
  | propagating (n : Nat)
  | done
  deriving DecidableEq, Repr

/-- The register block: what its registers store, its two status bits, and the hidden state behind them. -/
structure Block where
  /-- Crystal EN (R17). -/
  xtalEn  : Bool
  /-- Crystal RDY, a status bit (R17). -/
  xtalRdy : Bool
  core    : Pll
  ddr     : Pll
  eth     : Pll
  oeDdr   : OeBits
  oeEth   : OeBits
  /-- ClockSelect SEL: `true` the raw crystal, `false` the core PLL output (R22). -/
  sel     : Bool
  rst     : Lines
  obs     : Lines
  ddrprop : DdrProp
  deriving DecidableEq, Repr

/-! ### The sequencer, the faults and the history -/

inductive SeqStatus where
  | idle | running | done
  deriving DecidableEq, Repr

/-- The sequencer's state (10_state.md R29). -/
structure Seq where
  pc       : Nat
  status   : SeqStatus
  delayCtr : Option Nat
  nops     : Nat
  ranOnce  : Bool
  deriving DecidableEq, Repr

/-- The nine fault reasons (60_exceptions.md R162). -/
inductive HazardReason where
  | xtalDisabledInUse
  | reservedAccess (r : Reg)
  | coreReconfigWhileSelected
  | reconfigWhileActive (p : OePll)
  | reconfigWhileOutputEnabled (p : OePll)
  | outputEnabledUnlocked (p : OePll)
  | selectUnstablePll
  | selectUnreadyCrystal
  | ddrReleaseOrder
  deriving DecidableEq, Repr

/-- A recorded fault `(r, off, v, i)`: the reason, the transaction's word and value, and its index in `events`
(R161). -/
structure FaultRec where
  reason : HazardReason
  reg    : Reg
  value  : Word
  index  : Nat
  deriving DecidableEq, Repr

/-- The result of a lifecycle operation (45_sequencer.md section 5): `Ok()`, `Ok(n)` or `Err(NotImplemented)`. -/
inductive HostResult where
  | okUnit
  | ok (n : Nat)
  | errNotImplemented
  deriving DecidableEq, Repr

/-- An entry of the history (10_state.md R31). -/
inductive Event where
  | read (r : Reg) (w : Word)
  | write (r : Reg) (v : Word)
  | fence
  | ret
  | notify (consumer : Nat) (rate : Word)
  | envQuery (answer : Bool)
  | host (op : HostOp) (result : HostResult)
  deriving DecidableEq, Repr

/-- What is fixed for a launch and written by no step (R6, R32): the program, the consumers (opaque ids, log 18) and the
answer to the environment query. -/
structure Launch where
  program   : List SeqWords
  consumers : List Nat
  emulated  : Bool
  deriving DecidableEq, Repr


/-- The state of the machine. `draws`, `tick` and `sched` are the model's own (log 1, log 3). -/
structure State where
  /-- The OPEN parameters of the part; no step writes them (log 4). -/
  par         : Params
  /-- The launch; no step writes it. -/
  launch      : Launch
  block       : Block
  /-- Posted writes, oldest first (10_state.md R28). -/
  wbuf        : List (Reg × Word)
  seq         : Seq
  /-- The fault set, with no repeats, in the order of raising (R30). -/
  faults      : List FaultRec
  /-- The refusal mark (R30, R165). -/
  refused     : Option RefuseReason
  /-- The history, oldest first (R31). -/
  events      : List Event
  /-- A HOST_WRITE("on") has not returned yet (R152). -/
  hostPending : Bool
  /-- Index of the free word the next read draws from (log 3). -/
  draws       : Nat
  /-- Index of the scheduler's next free choice (log 1). -/
  tick        : Nat
  /-- Turns already chosen, first to come first (log 1). -/
  sched       : List Turn
  deriving DecidableEq, Repr

/-- What the spec leaves as a draw at reset (10_state.md R40, R41, R43). -/
structure ResetDraws where
  core  : Pll
  ddr   : Pll
  eth   : Pll
  oeDdr : OeBits
  oeEth : OeBits
  rst   : Lines
  deriving DecidableEq, Repr

/-- The state after power-on reset (R39 to R44), for every draw, part and launch. -/
def State.resetWith (par : Params) (launch : Launch) (d : ResetDraws) : State where
  par := par
  launch := launch
  block :=
    { xtalEn := true, xtalRdy := true
      core := d.core, ddr := d.ddr, eth := d.eth
      oeDdr := d.oeDdr, oeEth := d.oeEth
      sel := true
      rst := d.rst, obs := d.rst
      ddrprop := if d.rst.ddrCtrl && d.rst.ddrAxi && d.rst.ddrAhb && d.rst.ddrPhy then .done else .idle }
  wbuf := []
  seq := { pc := 0, status := .idle, delayCtr := none, nops := 0, ranOnce := false }
  faults := []
  refused := none
  events := []
  hostPending := false
  draws := 0
  tick := 0
  sched := []

/-- The draws `State.reset` names: those of the start state that 95_test_vectors.md writes out for P1 (log 6: DESIGN
CHOICE). -/
def resetDraws : ResetDraws :=
  let pll : Pll := { divr := 0, divf := 0, divq := 0, range := 0, bypass := false, fse := false, lock := false }
  { core := pll, ddr := pll, eth := pll
    oeDdr := { b31 := false, b24 := false }, oeEth := { b31 := false, b24 := false }
    rst := { ddrCtrl := true, ddrAxi := true, ddrAhb := true, ddrPhy := true, eth := true } }

/-- The parameters `State.reset` names: the defaults of 95_test_vectors.md, and the base address that R6 notes (log 4:
DESIGN CHOICE). -/
def resetParams : Params :=
  { base := 0x10000000, wbufDepth := 4, wbufDepth_pos := by decide, resetPropNops := 16, ckeBitEth := .bit31 }

/-- The firmware's launch: the program `P_INIT` (R145, R178), one consumer, not emulated (log 7). -/
def firmwareLaunch : Launch :=
  { program := pInit, consumers := [0], emulated := false }

/-- The machine right after reset. -/
def State.reset : State := State.resetWith resetParams firmwareLaunch resetDraws

end Sys2Proof.Machine
end

