-- ==== Sys2Proof/Machine/Operands.lean ====
section
/-! DEFINITION. Operand forms: the accessors of the register block, its bit fields, the words a read assembles
(30_encoding.md section 1), the sub-block sets and reset masks, and the presets. -/

namespace Sys2Proof

/-- The PLL that owns an output-enable word. -/
def OePll.pll : OePll → PllId
  | .ddr => .ddr
  | .eth => .eth

/-- `pos(s)`: the bit of ResetControl that is the line of `s` (30_encoding.md R69, R70). -/
def SubBlock.pos : SubBlock → Nat
  | .ddrCtrl => 0
  | .ddrAxi => 1
  | .ddrAhb => 2
  | .ddrPhy => 3
  | .eth => 5

/-- The number of an enable position. -/
def CkeBit.num : CkeBit → Nat
  | .bit24 => 24
  | .bit31 => 31

/-- The physical address of a register word: `BASE + off`. -/
def Reg.addr (par : Params) (r : Reg) : Nat := par.base + r.off.toNat

end Sys2Proof

namespace Sys2Proof.Machine

/-! ### Bit fields (00_scope.md R7, R8) -/

/-- The word with bit `k` equal to `b` and every other bit 0. -/
def bitAt (b : Bool) (k : Nat) : Word := if b then 1#32 <<< k else 0#32

/-- The word with ones in bits `hi:lo`. -/
def ones (hi lo : Nat) : Word := BitVec.ofNat 32 ((2 ^ (hi + 1 - lo) - 1) * 2 ^ lo)

/-- `ins(w, hi, lo, f)`: `w` with bits `hi:lo` replaced by the low bits of `f` (R8). -/
def ins (w : Word) (hi lo : Nat) (f : Word) : Word := (w &&& ~~~(ones hi lo)) ||| ((f <<< lo) &&& ones hi lo)

/-- A word with its bits inside `m` from `v` and the others from `w`: MODIFY's merge (45_sequencer.md R137). -/
def merge (w m v : Word) : Word := (w &&& ~~~m) ||| (v &&& m)

/-- Byte `k` of a register word: bits `8k+7:8k`, the byte at offset `4*i + k` (20_memory.md R47);
no access observes it (log 22). -/
def byteLane (w : Word) (k : Fin 4) : Byte := w.extractLsb' (8 * k.val) 8

/-! ### Accessors of the block -/

def Block.pll (b : Block) : PllId → Pll
  | .core => b.core
  | .ddr => b.ddr
  | .eth => b.eth

def Block.setPll (b : Block) (p : PllId) (x : Pll) : Block :=
  match p with
  | .core => { b with core := x }
  | .ddr => { b with ddr := x }
  | .eth => { b with eth := x }

def Block.oeBits (b : Block) : OePll → OeBits
  | .ddr => b.oeDdr
  | .eth => b.oeEth

def Block.setOeBits (b : Block) (p : OePll) (x : OeBits) : Block :=
  match p with
  | .ddr => { b with oeDdr := x }
  | .eth => { b with oeEth := x }

def Lines.get (l : Lines) : SubBlock → Bool
  | .ddrCtrl => l.ddrCtrl
  | .ddrAxi => l.ddrAxi
  | .ddrAhb => l.ddrAhb
  | .ddrPhy => l.ddrPhy
  | .eth => l.eth

def Lines.set (l : Lines) (s : SubBlock) (x : Bool) : Lines :=
  match s with
  | .ddrCtrl => { l with ddrCtrl := x }
  | .ddrAxi => { l with ddrAxi := x }
  | .ddrAhb => { l with ddrAhb := x }
  | .ddrPhy => { l with ddrPhy := x }
  | .eth => { l with eth := x }

/-! ### Sub-blocks and reset masks -/

/-- `DDR_SET` (10_state.md R25). -/
def ddrSet : List SubBlock := [.ddrCtrl, .ddrAxi, .ddrAhb, .ddrPhy]

/-- `ALL_SET` (R25). -/
def allSet : List SubBlock := ddrSet ++ [.eth]

/-- `deps(p)`: the sub-blocks whose clock PLL `p` drives (41_pll_lock_detector.md R104). -/
def deps : OePll → List SubBlock
  | .ddr => ddrSet
  | .eth => [.eth]

/-- The reset lines a ResetControl word asks for (43_reset_control.md R114). -/
def linesOfWord (v : Word) : Lines where
  ddrCtrl := v.getLsbD 0
  ddrAxi := v.getLsbD 1
  ddrAhb := v.getLsbD 2
  ddrPhy := v.getLsbD 3
  eth := v.getLsbD 5

/-- The ResetControl word of the lines, its reserved bits 0 (R115). -/
def Lines.word (l : Lines) : Word :=
  bitAt l.ddrCtrl 0 ||| bitAt l.ddrAxi 1 ||| bitAt l.ddrAhb 2 ||| bitAt l.ddrPhy 3 ||| bitAt l.eth 5

/-- `released(R)`: the ResetControl word with exactly the lines in `R` set (R25, R70). -/
def released (R : List SubBlock) : Word := R.foldl (fun w s => w ||| (1#32 <<< s.pos)) 0#32

/-! ### PLL configuration words -/

/-- `pllword` of the six stored fields; bits 31, 30:26 and 23:21 are 0 (30_encoding.md R66). -/
def pllWord (divr : BitVec 6) (divf : BitVec 9) (divq range : BitVec 3) (bypass fse : Bool) : Word :=
  divr.setWidth 32 ||| (divf.setWidth 32 <<< 6) ||| (divq.setWidth 32 <<< 15) ||| (range.setWidth 32 <<< 18)
    ||| bitAt bypass 24 ||| bitAt fse 25

/-- What a write of cfg0(p) stores: the six fields of the word, and LOCK cleared (41_pll_lock_detector.md R92). -/
def pllOfWord (v : Word) : Pll where
  divr := v.extractLsb' 0 6
  divf := v.extractLsb' 6 9
  divq := v.extractLsb' 15 3
  range := v.extractLsb' 18 3
  bypass := v.getLsbD 24
  fse := v.getLsbD 25
  lock := false

/-- The stored fields of a PLL as a configuration word. -/
def Pll.word (P : Pll) : Word := pllWord P.divr P.divf P.divq P.range P.bypass P.fse

/-- What `pllCanLock` looks at (R106). -/
def Pll.lockCfg (P : Pll) : LockCfg := { divr := P.divr, divf := P.divf, divq := P.divq, range := P.range, fse := P.fse }

/-- `CORE_PRESET`, `DDR_PRESET`, `ETH_PRESET` (R97). -/
def preset : PllId → Word
  | .core => pllWord 0 59 2 4 false true
  | .ddr => pllWord 0 55 2 4 false true
  | .eth => pllWord 0 59 5 4 false true

/-- `pllCanLock p c`: assumed for the three presets, nothing assumed for any other configuration (R106; log 5). -/
def pllCanLock (p : PllId) (c : LockCfg) : Bool := c == (pllOfWord (preset p)).lockCfg || Config.lockable p c

/-! ### Output enables -/

/-- `CKE_BIT_DDR = 31`; `CKE_BIT_ETH` is OPEN (10_state.md R21). -/
def ckeBit (par : Params) : OePll → CkeBit
  | .ddr => .bit31
  | .eth => par.ckeBitEth

/-- The stored bit at an enable position. -/
def OeBits.get (x : OeBits) : CkeBit → Bool
  | .bit24 => x.b24
  | .bit31 => x.b31

/-- What a write of cfg1(p) stores (41_pll_lock_detector.md R102). -/
def oeBitsOfWord (v : Word) : OeBits := { b31 := v.getLsbD 31, b24 := v.getLsbD 24 }

/-! ### The words a read assembles

Each takes the draw `d` of the read: reserved bits, and LOCK in bypass, are bits of `d` (40_register_access.md R81; the
several draws of one rule lie in disjoint bits of one free word, log 3). -/

/-- RD Crystal (R83). -/
def crystalWord (b : Block) (d : Word) : Word :=
  bitAt b.xtalEn 31 ||| bitAt b.xtalRdy 30 ||| (d &&& 0x3FFFFFFF#32)

/-- The LOCK bit of a read: the detector's output, a draw in bypass (41_pll_lock_detector.md R99). -/
def lockRead (P : Pll) (d : Word) : Bool := if P.bypass then d.getLsbD 31 else P.lock

/-- RD cfg0(p) (R91). -/
def cfg0Word (P : Pll) (d : Word) : Word :=
  P.word ||| bitAt (lockRead P d) 31 ||| (d &&& 0x7C000000#32) ||| (d &&& 0x00E00000#32)

/-- RD cfg1(p) (R98). -/
def cfg1Word (x : OeBits) (d : Word) : Word :=
  bitAt x.b31 31 ||| bitAt x.b24 24 ||| (d &&& 0x7E000000#32) ||| (d &&& 0x00FFFFFF#32)

/-- RD ClockSelect (42_clock_mux.md R107). -/
def clkselWord (b : Block) (d : Word) : Word := bitAt b.sel 0 ||| (d &&& 0xFFFFFFFE#32)

/-- RD ResetControl (43_reset_control.md R115): the lines, not what the sub-blocks have observed. -/
def rstctlWord (b : Block) (d : Word) : Word := b.rst.word ||| (d &&& 0xFFFFFFD0#32)

/-- The word a read of register `r` returns with draw `d`; a reserved word is all draw (R81, R89). -/
def readWord (r : Reg) (b : Block) (d : Word) : Word :=
  match r with
  | .crystal => crystalWord b d
  | .corepll => cfg0Word b.core d
  | .ddrpll0 => cfg0Word b.ddr d
  | .ethpll0 => cfg0Word b.eth d
  | .ddrpll1 => cfg1Word b.oeDdr d
  | .ethpll1 => cfg1Word b.oeEth d
  | .clksel => clkselWord b d
  | .rstctl => rstctlWord b d
  | .rsvd08 | .rsvd14 | .rsvd18 => d

/-! ### Absolute addresses (00_scope.md R9, 20_memory.md R45, R46, R49) -/

/-- The word at an absolute address `BASE + off`, checked as its offset is (R72 steps 3, 4); an address that is at no
8-bit offset from `BASE` is outside the window (R46). -/
def regOfAddr (par : Params) (a : Nat) : Except RefuseReason Reg :=
  if a < par.base ∨ par.base + 256 ≤ a then .error .offsetOutOfBlock
  else regOfOff (BitVec.ofNat 8 (a - par.base))

end Sys2Proof.Machine
end

