-- ==== Sys2Proof/Machine/Flags.lean ====
section
/-! DEFINITION. Status and hazards: the derived signals (output enable, stability, core clock, observation) and, for each
register, the fault reasons that a performed write meets (60_exceptions.md R162). There are no arithmetic flags
(10_state.md R36). -/

namespace Sys2Proof.Machine

/-! ### Derived signals -/

/-- What a PLL's output carries (41_pll_lock_detector.md R93, R96). The model computes no frequency (R105). -/
inductive PllOut where
  /-- The reference clock, passed through unmodified. -/
  | reference
  /-- The multiplied clock of a PLL that has locked. -/
  | multiplied
  /-- The output of a PLL that is neither bypassed nor locked. -/
  | glitching
  deriving DecidableEq, Repr

/-- The output of a PLL: bypass passes the reference through whatever LOCK is (R93); without it the output is the
multiplied clock once locked, and glitching before (R96). -/
def Pll.output (P : Pll) : PllOut :=
  if P.bypass then .reference else if P.lock then .multiplied else .glitching

/-- `stable(p)`: bypassed or locked (41_pll_lock_detector.md R96). -/
def Pll.stable (P : Pll) : Bool := P.bypass || P.lock

/-- `oe(p)`: the stored bit at the enable position (10_state.md R21). -/
def oe (par : Params) (b : Block) (p : OePll) : Bool := (b.oeBits p).get (ckeBit par p)

/-- The source that drives the core clock (R23). -/
inductive CoreSrc where
  | crystal | corePll
  deriving DecidableEq, Repr

/-- `core_src` (R23); it follows SEL in the same step, with no intermediate state (42_clock_mux.md R111). -/
def coreSrc (b : Block) : CoreSrc := if b.sel then .crystal else .corePll

/-- What drives the core clock. -/
inductive CoreClock where
  | crystal
  | pll (out : PllOut)
  deriving DecidableEq, Repr

/-- The clock the core runs from: the raw crystal, or what the core PLL's output carries, which in bypass is the reference
clock (R23, 42_clock_mux.md R112). -/
def coreClock (b : Block) : CoreClock :=
  match coreSrc b with
  | .crystal => .crystal
  | .corePll => .pll b.core.output

/-- The core clock is stable (R23). -/
def coreClockStable (b : Block) : Bool :=
  match coreSrc b with
  | .crystal => b.xtalRdy
  | .corePll => b.core.stable

/-- `all_observed` (43_reset_control.md R121). -/
def allObserved (b : Block) : Bool := b.obs == b.rst

/-- Every line of DDR_SET is 1 (R119, R120, R122). -/
def Lines.ddrAll (l : Lines) : Bool := l.ddrCtrl && l.ddrAxi && l.ddrAhb && l.ddrPhy

/-- Some sub-block that depends on PLL `p` is released, or has observed a release (R94). -/
def depsActive (b : Block) (p : OePll) : Bool := (deps p).any fun s => b.rst.get s || b.obs.get s

/-! ### The hazards of a write, each on the state before it (40_register_access.md R82) -/

/-- WR Crystal (R85). -/
def crystalHazards (b : Block) (v : Word) : List HazardReason :=
  if b.xtalEn && !v.getLsbD 31 then [.xtalDisabledInUse] else []

/-- WR CorePLLConfig (42_clock_mux.md R110). -/
def coreHazards (b : Block) : List HazardReason :=
  if b.sel then [] else [.coreReconfigWhileSelected]

/-- WR cfg0 or cfg1 of DDR or ETH while a dependent sub-block is active (R94). -/
def activeHazards (b : Block) (p : OePll) : List HazardReason :=
  if depsActive b p then [.reconfigWhileActive p] else []

/-- WR cfg0 of DDR or ETH (R94, R95). -/
def cfg0Hazards (par : Params) (b : Block) (p : OePll) : List HazardReason :=
  activeHazards b p ++ (if oe par b p then [.reconfigWhileOutputEnabled p] else [])

/-- WR cfg1 (R94, R103). -/
def cfg1Hazards (par : Params) (b : Block) (p : OePll) (v : Word) : List HazardReason :=
  activeHazards b p ++
    (if (oeBitsOfWord v).get (ckeBit par p) && !(b.pll p.pll).stable then [.outputEnabledUnlocked p] else [])

/-- WR ClockSelect (42_clock_mux.md R109). -/
def clkselHazards (b : Block) (v : Word) : List HazardReason :=
  if v.getLsbD 0 then (if b.xtalRdy then [] else [.selectUnreadyCrystal])
  else (if b.core.stable then [] else [.selectUnstablePll])

/-- WR ResetControl (43_reset_control.md R117): a newly released AXI, AHB or PHY while the controller has not observed
its own release. -/
def rstctlHazards (b : Block) (v : Word) : List HazardReason :=
  let new := linesOfWord v
  let released := (!b.rst.ddrAxi && new.ddrAxi) || (!b.rst.ddrAhb && new.ddrAhb) || (!b.rst.ddrPhy && new.ddrPhy)
  if released && !b.obs.ddrCtrl then [.ddrReleaseOrder] else []

/-- Every reason that a write of `v` at `r` meets; there is no priority among them (60_exceptions.md R163). -/
def writeHazards (r : Reg) (par : Params) (b : Block) (v : Word) : List HazardReason :=
  match r with
  | .crystal => crystalHazards b v
  | .corepll => coreHazards b
  | .ddrpll0 => cfg0Hazards par b .ddr
  | .ethpll0 => cfg0Hazards par b .eth
  | .ddrpll1 => cfg1Hazards par b .ddr v
  | .ethpll1 => cfg1Hazards par b .eth v
  | .clksel => clkselHazards b v
  | .rstctl => rstctlHazards b v
  | .rsvd08 | .rsvd14 | .rsvd18 => [.reservedAccess r]

/-- The reasons that a read of `r` meets: only a reserved word has one (40_register_access.md R88). -/
def readHazards : Reg → List HazardReason
  | .rsvd08 => [.reservedAccess .rsvd08]
  | .rsvd14 => [.reservedAccess .rsvd14]
  | .rsvd18 => [.reservedAccess .rsvd18]
  | _ => []

end Sys2Proof.Machine
end

