-- ==== Sys2Proof/Machine/Ops.lean ====
section
/-! DEFINITION. The shared operations on the state: recording faults and refusals, the history, the bus (read, posted
write, performed write), the no-op's count and the reset-domain steps. Every meaning is made of these. -/

namespace Sys2Proof.Machine

/-! ### Bookkeeping -/

/-- Append to the history (10_state.md R31). -/
def State.log (s : State) (e : Event) : State := { s with events := s.events ++ [e] }

/-- Add a record to the fault set (60_exceptions.md R161). -/
def addFault (fs : List FaultRec) (f : FaultRec) : List FaultRec := if f ∈ fs then fs else fs ++ [f]

/-- Record each reason in `why` for the transaction `(r, v)`, whose event is the next one of the history (R161, R163).
This is the block's counterpart of a trap: it transfers no control, and the step completes (R168). -/
def State.raise (s : State) (why : List HazardReason) (r : Reg) (v : Word) : State :=
  { s with faults := why.foldl (fun fs h => addFault fs ⟨h, r, v, s.events.length⟩) s.faults }

/-- `refuse(e)`: set the refusal mark (R165; log 11). -/
def State.refuse (s : State) (e : RefuseReason) : State := { s with refused := some e }

/-- `pc <- pc + 1`. -/
def State.advance (s : State) : State := { s with seq := { s.seq with pc := s.seq.pc + 1 } }

/-- The state with a changed register block. -/
def State.withBlock (s : State) (b : Block) : State := { s with block := b }

/-! ### The bus -/

/-- A performed read: the word the register's rule assembles, one fresh draw, the fault of a reserved word, and the READ
event (20_memory.md R54, 40_register_access.md R81, R88). The caller has checked that no write is pending. -/
def busRead (r : Reg) (s : State) : Word × State :=
  let w := readWord r s.block (Config.freeWord s.draws)
  (w, { (s.raise (readHazards r) r w).log (.read r w) with draws := s.draws + 1 })

/-- A read transaction: it holds while a posted write is pending (R54). -/
def readTxn (r : Reg) (s : State) : State := if s.wbuf = [] then (busRead r s).2 else s

/-- The posted-write buffer is full (R52). -/
def wbufFull (s : State) : Bool := decide (s.par.wbufDepth ≤ s.wbuf.length)

/-- `BusWrite(r, v)` with room in the buffer: append to its tail (R52). -/
def State.post (s : State) (r : Reg) (v : Word) : State := { s with wbuf := s.wbuf ++ [(r, v)] }

/-- What a write of Crystal stores: EN, and RDY cleared when EN is (40_register_access.md R84, R87). -/
def writeCrystal (b : Block) (v : Word) : Block :=
  { b with xtalEn := v.getLsbD 31, xtalRdy := b.xtalRdy && v.getLsbD 31 }

/-- What a write of ClockSelect stores (42_clock_mux.md R108). -/
def writeClksel (b : Block) (v : Word) : Block := { b with sel := v.getLsbD 0 }

/-- What a write of ResetControl does: every line takes its bit, an asserted line is observed at once (43_reset_control.md
R114, R118), and DDR propagation restarts if a DDR line is left at 0 (R119). -/
def writeRstctl (b : Block) (v : Word) : Block :=
  let new := linesOfWord v
  { b with
    rst := new
    obs :=
      { ddrCtrl := b.obs.ddrCtrl && new.ddrCtrl
        ddrAxi := b.obs.ddrAxi && new.ddrAxi
        ddrAhb := b.obs.ddrAhb && new.ddrAhb
        ddrPhy := b.obs.ddrPhy && new.ddrPhy
        eth := b.obs.eth && new.eth }
    ddrprop := if new.ddrAll then b.ddrprop else .idle }

/-- The register block after a write of `v` at `r`; RO and reserved bits of `v` are ignored (R82, R90), and a reserved
word changes nothing (R88). -/
def writeBlock (r : Reg) (b : Block) (v : Word) : Block :=
  match r with
  | .crystal => writeCrystal b v
  | .corepll => b.setPll .core (pllOfWord v)
  | .ddrpll0 => b.setPll .ddr (pllOfWord v)
  | .ethpll0 => b.setPll .eth (pllOfWord v)
  | .ddrpll1 => b.setOeBits .ddr (oeBitsOfWord v)
  | .ethpll1 => b.setOeBits .eth (oeBitsOfWord v)
  | .clksel => writeClksel b v
  | .rstctl => writeRstctl b v
  | .rsvd08 | .rsvd14 | .rsvd18 => b

/-- A performed write: the hazards of the state before it are recorded, the register's rule applies, and the WRITE event
is appended (20_memory.md R53, R82). -/
def performWrite (r : Reg) (v : Word) (s : State) : State :=
  ((s.raise (writeHazards r s.par s.block v) r v).withBlock (writeBlock r s.block v)).log (.write r v)

/-- `MemRead(addr, 4)` (00_scope.md R9): a read transaction at an absolute address, refused outside the words. -/
def memRead (a : Nat) (s : State) : State :=
  match regOfAddr s.par a with
  | .error e => s.refuse e
  | .ok r => readTxn r s

/-- `MemWrite(addr, 4, v)` (R9): a posted write at an absolute address; it holds while the buffer is full. -/
def memWrite (a : Nat) (v : Word) (s : State) : State :=
  match regOfAddr s.par a with
  | .error e => s.refuse e
  | .ok r => if wbufFull s then s else s.post r v

/-! ### No-ops and the reset domains -/

/-- DDR propagation when its count of no-ops becomes `n` (43_reset_control.md R122, R124). -/
def propCount (bound n : Nat) : DdrProp := if bound ≤ n then .done else .propagating n

/-- `ddrprop` after one retired no-op (R124). -/
def propNop (bound : Nat) : DdrProp → DdrProp
  | .propagating n => propCount bound (n + 1)
  | .idle => .idle
  | .done => .done

/-- `retire_nop()` (44_fence_and_delay.md R128). -/
def State.retireNop (s : State) : State :=
  { s with
    seq := { s.seq with nops := s.seq.nops + 1 }
    block := { s.block with ddrprop := propNop s.par.resetPropNops s.block.ddrprop } }

/-- A sub-block observes its release; the last DDR line to be observed starts DDR propagation (R120, R122). -/
def observe (bound : Nat) (b : Block) (x : SubBlock) : Block :=
  let obs := b.obs.set x true
  { b with
    obs := obs
    ddrprop := if ddrSet.contains x && obs.ddrAll && b.ddrprop == .idle then propCount bound 0 else b.ddrprop }

end Sys2Proof.Machine
end

