-- ==== Sys2Proof/Machine/ClockMux.lean ====
section
/-! DEFINITION. The bus transactions of ClockSelect (42_clock_mux.md). -/

namespace Sys2Proof.Machine

/-- RD_CLKSEL (R107): SEL, bits 31:1 draws. -/
def execRdClksel (s : State) : Host.Outcome State Fault Refusal := .next (readTxn .clksel s)

/-- WR_CLKSEL (R108): SEL stored, the switch immediate (R111); the two checks of R109. -/
def execWrClksel (v : Word) (s : State) : Host.Outcome State Fault Refusal := .next (performWrite .clksel v s)

end Sys2Proof.Machine
end

