-- ==== Sys2Proof/Machine/Crystal.lean ====
section
/-! DEFINITION. The bus transactions of Crystal and of the reserved words (40_register_access.md). -/

namespace Sys2Proof.Machine

/-- RD_CRYSTAL (R83): EN and RDY, bits 29:0 draws. -/
def execRdCrystal (s : State) : Host.Outcome State Fault Refusal := .next (readTxn .crystal s)

/-- WR_CRYSTAL (R84): EN stored, RDY cleared on a disable (R87), `XTAL_DISABLED_IN_USE` on 1 to 0 (R85). -/
def execWrCrystal (v : Word) (s : State) : Host.Outcome State Fault Refusal := .next (performWrite .crystal v s)

/-- RD_RSVD08 (R88): `RESERVED_ACCESS(0x08)`, always; the value is a draw (R89). -/
def execRdRsvd08 (s : State) : Host.Outcome State Fault Refusal := .next (readTxn .rsvd08 s)

/-- WR_RSVD08 (R88): `RESERVED_ACCESS(0x08)`, always; no register changes. -/
def execWrRsvd08 (v : Word) (s : State) : Host.Outcome State Fault Refusal := .next (performWrite .rsvd08 v s)

/-- RD_RSVD14 (R88): `RESERVED_ACCESS(0x14)`, always; the value is a draw (R89). -/
def execRdRsvd14 (s : State) : Host.Outcome State Fault Refusal := .next (readTxn .rsvd14 s)

/-- WR_RSVD14 (R88): `RESERVED_ACCESS(0x14)`, always; no register changes. -/
def execWrRsvd14 (v : Word) (s : State) : Host.Outcome State Fault Refusal := .next (performWrite .rsvd14 v s)

/-- RD_RSVD18 (R88): `RESERVED_ACCESS(0x18)`, always; the value is a draw (R89). -/
def execRdRsvd18 (s : State) : Host.Outcome State Fault Refusal := .next (readTxn .rsvd18 s)

/-- WR_RSVD18 (R88): `RESERVED_ACCESS(0x18)`, always; no register changes. -/
def execWrRsvd18 (v : Word) (s : State) : Host.Outcome State Fault Refusal := .next (performWrite .rsvd18 v s)

end Sys2Proof.Machine
end

