-- ==== Sys2Proof/Machine/FenceDelay.lean ====
section
/-! DEFINITION. FENCE, NOP and DELAY (44_fence_and_delay.md). -/

namespace Sys2Proof.Machine

/-- FENCE (R127): holds while a write is pending or a released line is unobserved, and waits for nothing else (R131). -/
def execFence (s : State) : Host.Outcome State Fault Refusal :=
  .next (if s.wbuf = [] ∧ allObserved s.block = true then (s.log .fence).advance else s)

/-- NOP (R128): retires one no-op; it does not wait for posted writes. -/
def execNop (s : State) : Host.Outcome State Fault Refusal := .next s.retireNop.advance

/-- The state with the DELAY's counter set. -/
def State.setDelay (s : State) (c : Option Nat) : State := { s with seq := { s.seq with delayCtr := c } }

/-- One SEQ step of DELAY n (R129): the counter starts at `n` unless a DELAY is in progress (R132); each step but the one
of `DELAY 0` retires a no-op, and the last advances pc. -/
def execDelay (n : Nat) (s : State) : Host.Outcome State Fault Refusal :=
  match s.seq.delayCtr.getD n with
  | 0 => .next (s.setDelay none).advance
  | 1 => .next (s.retireNop.setDelay none).advance
  | c + 2 => .next (s.retireNop.setDelay (some (c + 1)))

end Sys2Proof.Machine
end

