-- ==== Sys2Proof/Machine/PllConfig.lean ====
section
/-! DEFINITION. The bus transactions of the PLL words cfg0 and cfg1 (41_pll_lock_detector.md). -/

namespace Sys2Proof.Machine

/-- RD_COREPLL (R91): the stored fields, LOCK (a draw in bypass, R99), reserved bits draws. -/
def execRdCorepll (s : State) : Host.Outcome State Fault Refusal := .next (readTxn .corepll s)

/-- WR_COREPLL (R92): the fields stored, LOCK cleared; `CORE_RECONFIG_WHILE_SELECTED` when `sel = 0` (R110). -/
def execWrCorepll (v : Word) (s : State) : Host.Outcome State Fault Refusal := .next (performWrite .corepll v s)

/-- RD_DDRPLL0 (R91). -/
def execRdDdrpll0 (s : State) : Host.Outcome State Fault Refusal := .next (readTxn .ddrpll0 s)

/-- WR_DDRPLL0 (R92): the fields stored, LOCK cleared; the hazards of R94 and R95. -/
def execWrDdrpll0 (v : Word) (s : State) : Host.Outcome State Fault Refusal := .next (performWrite .ddrpll0 v s)

/-- RD_DDRPLL1 (R98): both stored enable bits, the rest draws. -/
def execRdDdrpll1 (s : State) : Host.Outcome State Fault Refusal := .next (readTxn .ddrpll1 s)

/-- WR_DDRPLL1 (R102): bits 31 and 24 stored; bit 31 is the enable (R21); the hazards of R94 and R103. -/
def execWrDdrpll1 (v : Word) (s : State) : Host.Outcome State Fault Refusal := .next (performWrite .ddrpll1 v s)

/-- RD_ETHPLL0 (R91). -/
def execRdEthpll0 (s : State) : Host.Outcome State Fault Refusal := .next (readTxn .ethpll0 s)

/-- WR_ETHPLL0 (R92): the fields stored, LOCK cleared; the hazards of R94 and R95. -/
def execWrEthpll0 (v : Word) (s : State) : Host.Outcome State Fault Refusal := .next (performWrite .ethpll0 v s)

/-- RD_ETHPLL1 (R98). -/
def execRdEthpll1 (s : State) : Host.Outcome State Fault Refusal := .next (readTxn .ethpll1 s)

/-- WR_ETHPLL1 (R102): bits 31 and 24 stored; `CKE_BIT_ETH` says which is the enable (R21). -/
def execWrEthpll1 (v : Word) (s : State) : Host.Outcome State Fault Refusal := .next (performWrite .ethpll1 v s)

end Sys2Proof.Machine
end

