-- ==== Sys2Proof/Machine/ResetControl.lean ====
section
/-! DEFINITION. The bus transactions of ResetControl (43_reset_control.md). -/

namespace Sys2Proof.Machine

/-- RD_RSTCTL (R115): the reset lines, bits 31:6 and 4 draws. -/
def execRdRstctl (s : State) : Host.Outcome State Fault Refusal := .next (readTxn .rstctl s)

/-- WR_RSTCTL (R114): every line takes its bit, assertion observed at once (R118), propagation restarted (R119); `DDR_RELEASE_ORDER` by R117. -/
def execWrRstctl (v : Word) (s : State) : Host.Outcome State Fault Refusal := .next (performWrite .rstctl v s)

end Sys2Proof.Machine
end

