-- ==== Sys2Proof/Machine/Sequencer.lean ====
section
/-! DEFINITION. The register-access and control operations of the sequencer (45_sequencer.md). -/

namespace Sys2Proof.Machine

/-- RD REG (R135): holds while a write is pending; the value is kept only in the READ event. -/
def execRd (r : Reg) (s : State) : Host.Outcome State Fault Refusal :=
  .next (if s.wbuf = [] then (busRead r s).2.advance else s)

/-- WR REG, VALUE (R136): posts the write; holds while the buffer is full (R52). -/
def execWr (r : Reg) (v : Word) (s : State) : Host.Outcome State Fault Refusal :=
  .next (if wbufFull s then s else (s.post r v).advance)

/-- MODIFY REG, MASK, VALUE (R137): a read, then a posted write of the merged word, in one SEQ step. It holds while a
write is pending, or the buffer is full, with neither half done (log 20: a buffer with nothing pending is never full). -/
def execModify (r : Reg) (m v : Word) (s : State) : Host.Outcome State Fault Refusal :=
  .next
    (if s.wbuf = [] ∧ wbufFull s = false then
      let a := busRead r s
      (a.2.post r (merge a.1 m v)).advance
    else s)

/-- POLL REG, MASK, VALUE (R138): one read per step; pc advances when the masked word equals VALUE, and stays otherwise,
with no timeout. -/
def execPoll (r : Reg) (m v : Word) (s : State) : Host.Outcome State Fault Refusal :=
  .next
    (if s.wbuf = [] then
      let a := busRead r s
      if a.1 &&& m = v then a.2.advance else a.2
    else s)

/-- NOTIFY RATE (R142): one event per consumer, in list order; it touches nothing of the block (R143). -/
def execNotify (rate : Word) (s : State) : Host.Outcome State Fault Refusal :=
  .next ({ s with events := s.events ++ s.launch.consumers.map (Event.notify · rate) } : State).advance

/-- EXIT_IF_EMU (R144): records the environment's answer; an emulated launch goes to the program's final RET
(an empty program: log 23). -/
def execExitIfEmu (s : State) : Host.Outcome State Fault Refusal :=
  let s' := s.log (.envQuery s.launch.emulated)
  .next { s' with seq := { s'.seq with pc := if s.launch.emulated then s.launch.program.length - 1 else s.seq.pc + 1 } }

/-- RET (R139): the status becomes DONE, pc stays; pending writes are performed later by BUS. -/
def execRet (s : State) : Host.Outcome State Fault Refusal :=
  let s' := s.log .ret
  .next { s' with seq := { s'.seq with status := .done } }

end Sys2Proof.Machine
end

