-- ==== Sys2Proof/Machine/Dispatch.lean ====
section
/-! DEFINITION. One arm per instruction, each a direct call of its meaning. -/

namespace Sys2Proof.Machine

def exec (i : Instr) (s : State) : Host.Outcome State Fault Refusal :=
  match i with
  | .rdCrystal => Sys2Proof.Machine.execRdCrystal s
  | .wrCrystal v => Sys2Proof.Machine.execWrCrystal v s
  | .rdCorepll => Sys2Proof.Machine.execRdCorepll s
  | .wrCorepll v => Sys2Proof.Machine.execWrCorepll v s
  | .rdRsvd08 => Sys2Proof.Machine.execRdRsvd08 s
  | .wrRsvd08 v => Sys2Proof.Machine.execWrRsvd08 v s
  | .rdDdrpll0 => Sys2Proof.Machine.execRdDdrpll0 s
  | .wrDdrpll0 v => Sys2Proof.Machine.execWrDdrpll0 v s
  | .rdDdrpll1 => Sys2Proof.Machine.execRdDdrpll1 s
  | .wrDdrpll1 v => Sys2Proof.Machine.execWrDdrpll1 v s
  | .rdRsvd14 => Sys2Proof.Machine.execRdRsvd14 s
  | .wrRsvd14 v => Sys2Proof.Machine.execWrRsvd14 v s
  | .rdRsvd18 => Sys2Proof.Machine.execRdRsvd18 s
  | .wrRsvd18 v => Sys2Proof.Machine.execWrRsvd18 v s
  | .rdEthpll0 => Sys2Proof.Machine.execRdEthpll0 s
  | .wrEthpll0 v => Sys2Proof.Machine.execWrEthpll0 v s
  | .rdEthpll1 => Sys2Proof.Machine.execRdEthpll1 s
  | .wrEthpll1 v => Sys2Proof.Machine.execWrEthpll1 v s
  | .rdClksel => Sys2Proof.Machine.execRdClksel s
  | .wrClksel v => Sys2Proof.Machine.execWrClksel v s
  | .rdRstctl => Sys2Proof.Machine.execRdRstctl s
  | .wrRstctl v => Sys2Proof.Machine.execWrRstctl v s
  | .rd r => Sys2Proof.Machine.execRd r s
  | .wr r v => Sys2Proof.Machine.execWr r v s
  | .modify r m v => Sys2Proof.Machine.execModify r m v s
  | .poll r m v => Sys2Proof.Machine.execPoll r m v s
  | .fence => Sys2Proof.Machine.execFence s
  | .nop => Sys2Proof.Machine.execNop s
  | .delay n => Sys2Proof.Machine.execDelay n s
  | .notify rate => Sys2Proof.Machine.execNotify rate s
  | .exitIfEmu => Sys2Proof.Machine.execExitIfEmu s
  | .ret => Sys2Proof.Machine.execRet s

end Sys2Proof.Machine
end

