-- ==== Sys2Proof/Machine/Agents.lean ====
section
/-! DEFINITION. The steps of the agents (00_scope.md R11): SEQ fetches and executes, BUS performs the oldest posted write, the port
decodes a transaction from outside, and the detectors, the reset domains and the host take their own steps. An agent
with no step in the state leaves it as it is (R9 `hold`; log 2). -/

namespace Sys2Proof.Machine

/-! ### SEQ -/

/-- The operation at `seq.pc`, if the program has one (45_sequencer.md R134, R140). -/
def fetch (s : State) : Option SeqWords := s.launch.program[s.seq.pc]?

/-- SEQ has a step (R134, R165). -/
def seqEnabled (s : State) : Bool := s.seq.status == .running && s.refused == none

/-- One SEQ step (R134): fetch, decode, execute. A pc outside the program is refused (R140), and so is an operation that
does not decode (R76). -/
def seqStep (s : State) : Host.Outcome State Fault Refusal :=
  if seqEnabled s then
    match fetch s with
    | none => .next (s.refuse .pcOutOfRange)
    | some q =>
      match decodeSeq q with
      | .error e => .next (s.refuse e)
      | .ok i => exec i s
  else .next s

/-! ### BUS and the bus port -/

/-- One BUS step (20_memory.md R53): the oldest posted write is removed and performed. -/
def busStep (s : State) : Host.Outcome State Fault Refusal :=
  match s.wbuf with
  | [] => .next s
  | (r, v) :: rest => exec (Instr.ofWrite r v) { s with wbuf := rest }

/-- A transaction presented at the block's port from outside SEQ (30_encoding.md R72; log 8). While the sequencer runs,
no other agent accesses the block (45_sequencer.md R155). -/
def portStep (h : BitVec 16) (d : Word) (s : State) : Host.Outcome State Fault Refusal :=
  if s.seq.status = .running then .next s
  else
    match decodeBus h d with
    | .error e => .next (s.refuse e)
    | .ok i => exec i s

/-! ### The detectors and the reset domains -/

/-- `PLL(p)` has a step (41_pll_lock_detector.md R100). -/
def pllEnabled (p : PllId) (b : Block) : Bool :=
  !(b.pll p).lock && !(b.pll p).bypass && b.xtalRdy && pllCanLock p (b.pll p).lockCfg

/-- `PLL(p)` acquires lock (R100). -/
def pllStep (p : PllId) (s : State) : State :=
  if pllEnabled p s.block then s.withBlock (s.block.setPll p { s.block.pll p with lock := true }) else s

/-- `XTAL` has a step (40_register_access.md R86). -/
def xtalEnabled (b : Block) : Bool := b.xtalEn && !b.xtalRdy

/-- `XTAL` reports ready (R86). -/
def xtalStep (s : State) : State :=
  if xtalEnabled s.block then s.withBlock { s.block with xtalRdy := true } else s

/-- `RSTOBS(x)` has a step (43_reset_control.md R120). -/
def rstobsEnabled (x : SubBlock) (b : Block) : Bool := b.rst.get x && !b.obs.get x

/-- `RSTOBS(x)`: the sub-block observes its release (R120, R122). -/
def rstobsStep (x : SubBlock) (s : State) : State :=
  if rstobsEnabled x s.block then s.withBlock (observe s.par.resetPropNops s.block x) else s

/-- `DDRPROP` has a step (R123). -/
def ddrpropEnabled (b : Block) : Bool :=
  match b.ddrprop with
  | .propagating _ => true
  | .idle => false
  | .done => false

/-- `DDRPROP`: propagation completes early (R123). -/
def ddrpropStep (s : State) : State :=
  if ddrpropEnabled s.block then s.withBlock { s.block with ddrprop := .done } else s

/-! ### The host -/

/-- The payload "on": exactly the two bytes 0x6F 0x6E (45_sequencer.md R152). -/
def onPayload : List Byte := [0x6F#8, 0x6E#8]

/-- The run is over (R156). -/
def runOver (s : State) : Bool := s.seq.status == .done && s.wbuf.isEmpty && allObserved s.block

/-- The host may call a lifecycle operation (R155; log 9). -/
def hostEnabled (s : State) : Bool := s.seq.status != .running && !s.hostPending

/-- A lifecycle operation (R150 to R154). HOST_WRITE("on") starts the sequencer and stays pending; a second one is
refused and does nothing else (log 9). -/
def hostStep (op : HostOp) (s : State) : State :=
  if hostEnabled s then
    match op with
    | .init => s.log (.host .init .okUnit)
    | .read => s.log (.host .read .errNotImplemented)
    | .shutdown => s.log (.host .shutdown .okUnit)
    | .write payload =>
      if payload = onPayload then
        if s.seq.ranOnce then s.refuse .reinit
        else { s with seq := { s.seq with ranOnce := true, pc := 0, status := .running }, hostPending := true }
      else s.log (.host (.write payload) (.ok 0))
  else s

/-- The pending HOST_WRITE("on") returns (R152, R156; log 10). -/
def hostReturnStep (s : State) : State :=
  if s.hostPending && runOver s then { s.log (.host (.write onPayload) (.ok 1)) with hostPending := false } else s

/-- A launch (R134): an ill-formed program is refused when it is loaded and replaces nothing (log 15). It is an input from
outside the machine, before the run; no step does it. -/
def State.launchWith (s : State) (l : Launch) : State :=
  match checkProgram l.program with
  | .error e => s.refuse e
  | .ok _ => { s with launch := l }

/-! ### Whose turn it is -/

/-- The agent that moves next: the oldest choice the state holds, or else a free one (R12; log 1). -/
def turnOf (s : State) : Turn := s.sched.headD (Config.schedule s.tick)

/-- The state once the choice is used. -/
def State.endTurn (s : State) : State := { s with sched := s.sched.tail, tick := s.tick + 1 }

/-- The step of the agent whose turn it is. -/
def agentStep (t : Turn) (s : State) : Host.Outcome State Fault Refusal :=
  match t with
  | .seq => seqStep s
  | .bus => busStep s
  | .port h d => portStep h d s
  | .pll p => .next (pllStep p s)
  | .xtal => .next (xtalStep s)
  | .rstobs x => .next (rstobsStep x s)
  | .ddrprop => .next (ddrpropStep s)
  | .host op => .next (hostStep op s)
  | .hostReturn => .next (hostReturnStep s)

/-- The whole step: the agent whose turn it is moves. -/
def agentsStep (s : State) : Host.Outcome State Fault Refusal := agentStep (turnOf s) s.endTurn

/-! ### Placing an instruction (for `State.withFetchWord`) -/

/-- The program with operation `q` at index `k`; a gap before it is filled with NOPs. -/
def placeAt (q : SeqWords) : Nat → List SeqWords → List SeqWords
  | 0, [] => [q]
  | 0, _ :: rest => q :: rest
  | k + 1, [] => ⟨0x06000000#32, 0, 0⟩ :: placeAt q k []
  | k + 1, p :: rest => p :: placeAt q k rest

/-- The state in which the very next step runs the encoded instruction: a bus transaction is presented at the port, with
the sequencer not running and no write pending; a sequencer operation stands at `seq.pc` of the program, with the
sequencer running (log 7, log 17). -/
def State.place (s : State) : Encoded → State
  | .bus16 h d =>
    { s with
      seq := { s.seq with status := if s.seq.status = .running then .idle else s.seq.status }
      wbuf := []
      sched := .port h d :: s.sched }
  | .seq96 q =>
    { s with
      launch := { s.launch with program := placeAt q s.seq.pc s.launch.program }
      seq := { s.seq with status := .running, delayCtr := none }
      refused := none
      sched := .seq :: s.sched }

end Sys2Proof.Machine
end

