-- ==== Sys2Proof/Machine/Step.lean ====
section
/-! DEFINITION. One step of the machine, and where the host places an instruction for it. -/

namespace Sys2Proof.Machine

/-- One step: one transaction, one sequencer operation or one asynchronous event (00_scope.md R5), of the agent whose turn
it is (R12). -/
def step (s : State) : Host.Outcome State Fault Refusal := agentsStep s

/-- `s` with the instruction of the given bits stored where the next step takes it from (log 7, log 17). -/
def State.withFetchWord (s : State) (nbits w : Nat) : State := s.place (layoutBits nbits w)

end Sys2Proof.Machine
end

