-- ==== Sys2Proof/Machine/Assembler.lean ====
section
/-! DEFINITION. The assembler: the pseudo-instructions and their expansions (30_encoding.md R79), and the reading of one
line of text (R78). It is notation for programs; no step of the machine uses it. What
the spec leaves open of the text is log 21. -/

namespace Sys2Proof.Machine

/-! ### Named fields -/

/-- The RW fields that `setf` may name; the read-only LOCK and RDY have no name here (R79, 40_register_access.md R90). -/
inductive RwField where
  | xtalEn
  | divr (p : PllId) | divf (p : PllId) | divq (p : PllId) | range (p : PllId) | bypass (p : PllId) | fse (p : PllId)
  | cke31 (p : OePll) | cke24 (p : OePll)
  | sel
  | line (s : SubBlock)
  deriving DecidableEq, Repr

/-- cfg0(p) (10_state.md R18). -/
def cfg0Reg : PllId → Reg
  | .core => .corepll
  | .ddr => .ddrpll0
  | .eth => .ethpll0

/-- cfg1(p) (10_state.md R20). -/
def cfg1Reg : OePll → Reg
  | .ddr => .ddrpll1
  | .eth => .ethpll1

/-- The register of a field and its bits `hi:lo` (30_encoding.md R65 to R69). -/
def RwField.place : RwField → Reg × Nat × Nat
  | .xtalEn => (.crystal, 31, 31)
  | .divr p => (cfg0Reg p, 5, 0)
  | .divf p => (cfg0Reg p, 14, 6)
  | .divq p => (cfg0Reg p, 17, 15)
  | .range p => (cfg0Reg p, 20, 18)
  | .bypass p => (cfg0Reg p, 24, 24)
  | .fse p => (cfg0Reg p, 25, 25)
  | .cke31 p => (cfg1Reg p, 31, 31)
  | .cke24 p => (cfg1Reg p, 24, 24)
  | .sel => (.clksel, 0, 0)
  | .line s => (.rstctl, s.pos, s.pos)

/-! ### Pseudo-instructions (R79) -/

/-- `lockwait REG`. -/
def asmLockwait (r : Reg) : Instr := .poll r 0x80000000#32 0x80000000#32

/-- `setf REG.FIELD, f`. -/
def asmSetf (x : RwField) (f : Word) : Instr :=
  let (r, hi, lo) := x.place
  .modify r (ones hi lo) (ins 0#32 hi lo f)

/-- `sel_crystal`. -/
def asmSelCrystal : Instr := .wr .clksel 1#32

/-- `sel_pll`. -/
def asmSelPll : Instr := .wr .clksel 0#32

/-- `hold_all`. -/
def asmHoldAll : Instr := .wr .rstctl 0#32

/-- `release R`. -/
def asmRelease (R : List SubBlock) : Instr := .wr .rstctl (released R)

/-- `oe_off REG`. -/
def asmOeOff (r : Reg) : Instr := .wr r 0#32

/-- `oe_on REG`. -/
def asmOeOn (r : Reg) : Instr := .wr r 0x80000000#32

/-- `nops N`. -/
def asmNops (n : Nat) : List Instr := List.replicate n .nop

/-! ### Reading text (R78) -/

/-- Cut a list of characters at every `c`. -/
def cutAt (c : Char) : List Char → List (List Char)
  | [] => [[]]
  | x :: xs =>
    if x = c then [] :: cutAt c xs
    else
      match cutAt c xs with
      | [] => [[x]]
      | g :: gs => (x :: g) :: gs

/-- Drop the blanks at both ends. -/
def trimBlanks (l : List Char) : List Char :=
  let blank := fun c : Char => c == ' ' || c == '\t'
  ((l.dropWhile blank).reverse.dropWhile blank).reverse

/-- A digit of a base, upper or lower case. -/
def digitOf (base : Nat) (c : Char) : Option Nat :=
  let k := c.toNat
  let d := if 48 ≤ k ∧ k ≤ 57 then k - 48 else if 97 ≤ k ∧ k ≤ 102 then k - 87 else if 65 ≤ k ∧ k ≤ 70 then k - 55 else 99
  if d < base then some d else none

/-- Digits after those that make `acc`; underscores are only for reading (00_scope.md R7). -/
def readDigits (base : Nat) : Nat → List Char → Option Nat
  | acc, [] => some acc
  | acc, c :: cs =>
    if c = '_' then readDigits base acc cs
    else
      match digitOf base c with
      | none => none
      | some d => readDigits base (acc * base + d) cs

/-- A decimal or `0x` hexadecimal number. -/
def readNat : List Char → Option Nat
  | [] => none
  | '0' :: 'x' :: [] => none
  | '0' :: 'x' :: ds => readDigits 16 0 ds
  | ds => readDigits 10 0 ds

/-- A 32-bit number. -/
def readWordText (t : List Char) : Option Word :=
  match readNat t with
  | some n => if n < 2 ^ 32 then some (BitVec.ofNat 32 n) else none
  | none => none

/-- The name of a defined register. -/
def regOfName (t : String) : Option Reg :=
  [("crystal", Reg.crystal), ("corepll", .corepll), ("ddrpll0", .ddrpll0), ("ddrpll1", .ddrpll1),
   ("ethpll0", .ethpll0), ("ethpll1", .ethpll1), ("clksel", .clksel), ("rstctl", .rstctl)].lookup t

/-- A register operand: a name, or an offset. -/
def readReg (t : List Char) : Option Reg :=
  match regOfName (String.ofList t) with
  | some r => some r
  | none =>
    match readNat t with
    | some n => if n < 256 then (regOfOff (BitVec.ofNat 8 n)).toOption else none
    | none => none

/-- A sub-block of `release`, by the spec's name (10_state.md R24). -/
def readSubBlock (t : List Char) : Option SubBlock :=
  [("DDR_CTRL", SubBlock.ddrCtrl), ("DDR_AXI", .ddrAxi), ("DDR_AHB", .ddrAhb), ("DDR_PHY", .ddrPhy),
   ("ETH", .eth)].lookup (String.ofList t)

/-- The field `REG.FIELD` of `setf`, by the names of R65 to R69. REG is a register's name here and not an offset, although
R78 lets a register operand be either: R79 does not say whether its REG is such an operand (log 21: DESIGN CHOICE). -/
def readField (t : List Char) : Option RwField :=
  let pll (p : PllId) (f : List Char) : Option RwField :=
    [("DIVR", RwField.divr p), ("DIVF", .divf p), ("DIVQ", .divq p), ("RANGE", .range p), ("BYPASS", .bypass p),
     ("FSE", .fse p)].lookup (String.ofList f)
  let cke (p : OePll) (f : List Char) : Option RwField :=
    [("CKE31", RwField.cke31 p), ("CKE24", .cke24 p)].lookup (String.ofList f)
  match cutAt '.' t with
  | [r, f] =>
    match regOfName (String.ofList r) with
    | some .crystal => [("EN", RwField.xtalEn)].lookup (String.ofList f)
    | some .corepll => pll .core f
    | some .ddrpll0 => pll .ddr f
    | some .ethpll0 => pll .eth f
    | some .ddrpll1 => cke .ddr f
    | some .ethpll1 => cke .eth f
    | some .clksel => [("SEL", RwField.sel)].lookup (String.ofList f)
    | some .rstctl =>
      [("DDR_CTRL_RST_N", RwField.line .ddrCtrl), ("DDR_AXI_RST_N", .line .ddrAxi), ("DDR_AHB_RST_N", .line .ddrAhb),
       ("DDR_PHY_RST_N", .line .ddrPhy), ("ETH_RST_N", .line .eth)].lookup (String.ofList f)
    | _ => none
  | _ => none

/-- The operations a mnemonic and its operands spell: one, but for `nops`. -/
def asmOp (mnemonic : String) (operands : List (List Char)) : Option (List Instr) :=
  let one (i : Instr) : Option (List Instr) := some [i]
  match mnemonic, operands with
  | "rd", [r] => do one (.rd (← readReg r))
  | "wr", [r, v] => do one (.wr (← readReg r) (← readWordText v))
  | "modify", [r, m, v] => do one (.modify (← readReg r) (← readWordText m) (← readWordText v))
  | "poll", [r, m, v] => do one (.poll (← readReg r) (← readWordText m) (← readWordText v))
  | "fence", [] => one .fence
  | "nop", [] => one .nop
  | "delay", [n] => do
    let k ← readNat n
    if k < 65536 then one (.delay k) else none
  | "notify", [v] => do one (.notify (← readWordText v))
  | "exit_if_emu", [] => one .exitIfEmu
  | "ret", [] => one .ret
  | "lockwait", [r] => do one (asmLockwait (← readReg r))
  | "setf", [x, f] => do one (asmSetf (← readField x) (← readWordText f))
  | "sel_crystal", [] => one asmSelCrystal
  | "sel_pll", [] => one asmSelPll
  | "hold_all", [] => one asmHoldAll
  | "release", R => do one (asmRelease (← R.mapM readSubBlock))
  | "oe_off", [r] => do one (asmOeOff (← readReg r))
  | "oe_on", [r] => do one (asmOeOn (← readReg r))
  | "nops", [n] => do some (asmNops (← readNat n))
  | _, _ => none

/-- One line: a label up to `:`, an operation, a comment from `;`. A line without an operation spells none. The braces
around the set of `release` (characters 123 and 125) are only for reading. -/
def asmLine (line : List Char) : Option (List Instr) :=
  let code := (line.takeWhile (· != ';')).filter fun c => c.toNat != 123 && c.toNat != 125
  let body := trimBlanks ((cutAt ':' code).getLastD [])
  let mnemonic := body.takeWhile fun c => c != ' ' && c != '\t'
  let rest := trimBlanks (body.drop mnemonic.length)
  if body = [] then some []
  else asmOp (String.ofList mnemonic) (if rest = [] then [] else (cutAt ',' rest).map trimBlanks)

end Sys2Proof.Machine
end

