-- ==== Sys2Proof/Safety.lean ====
section
/-! DEFINITION. What counts as a good state, a safe end, a fair run and a hang (00_scope.md R12, 45_sequencer.md R156,
60_exceptions.md R164, R166), and the relations that the statements about the machine are written in. -/

namespace Sys2Proof.Machine

/-! ### Invariants -/

/-- What always holds of the block: a ready crystal is enabled (R87); a sub-block has observed a release only of a line
that is released (R26); DDR propagation is idle exactly while some DDR line is unobserved (R119, R120, R122); a count in
progress is below its bound (R124). -/
def blockInv (par : Params) (b : Block) : Prop :=
  (b.xtalRdy = true → b.xtalEn = true) ∧
  (∀ x, b.obs.get x = true → b.rst.get x = true) ∧
  (b.ddrprop = .idle ↔ b.obs.ddrAll = false) ∧
  (∀ n, b.ddrprop = .propagating n → n < par.resetPropNops)

/-- The posted writes fit the buffer (10_state.md R28). -/
def bufferInv (s : State) : Prop := s.wbuf.length ≤ s.par.wbufDepth

/-- What always holds of the sequencer: it has left IDLE exactly if it was started (R29, R152); a HOST_WRITE is pending
only then; a DELAY's counter is set only while it runs, at a DELAY whose count the counter is below (R132). -/
def seqInv (s : State) : Prop :=
  (s.seq.ranOnce = true ↔ s.seq.status ≠ .idle) ∧
  (s.hostPending = true → s.seq.ranOnce = true) ∧
  (∀ c, s.seq.delayCtr = some c →
    s.seq.status = .running ∧ ∃ q n, fetch s = some q ∧ decodeSeq q = .ok (.delay n) ∧ 1 ≤ c ∧ c < n)

/-- The launch's program is well formed (45_sequencer.md R134) and the sequencer, while it runs, is at one of its
operations (R140). -/
def programInv (s : State) : Prop :=
  (∃ is, checkProgram s.launch.program = .ok is) ∧
  (s.seq.status = .running → s.seq.pc < s.launch.program.length)

/-- Every fault record names the transaction that the history holds at its index (60_exceptions.md R161), and no record
stands twice. -/
def faultsInv (s : State) : Prop :=
  (∀ f ∈ s.faults, s.events[f.index]? = some (.read f.reg f.value) ∨ s.events[f.index]? = some (.write f.reg f.value)) ∧
  s.faults.Nodup

/-! ### Ends and runs -/

/-- A good end: the run is over with nothing refused and no fault recorded (R156, R164, R165). -/
def goodEnd (s : State) : Bool := runOver s && s.faults.isEmpty && s.refused.isNone

/-- SEQ's operation holds in this state: the three cases of 70_reset_and_hazards.md R185. -/
def seqHolds (s : State) : Instr → Bool
  | .rd _ | .poll _ _ _ => !s.wbuf.isEmpty
  | .wr _ _ => wbufFull s
  | .modify _ _ _ => !s.wbuf.isEmpty || wbufFull s
  | .fence => !s.wbuf.isEmpty || !allObserved s.block
  | .nop | .delay _ | .notify _ | .exitIfEmu | .ret => false
  | .rdCrystal | .wrCrystal _ | .rdCorepll | .wrCorepll _ | .rdRsvd08 | .wrRsvd08 _
  | .rdDdrpll0 | .wrDdrpll0 _ | .rdDdrpll1 | .wrDdrpll1 _ | .rdRsvd14 | .wrRsvd14 _
  | .rdRsvd18 | .wrRsvd18 _ | .rdEthpll0 | .wrEthpll0 _ | .rdEthpll1 | .wrEthpll1 _
  | .rdClksel | .wrClksel _ | .rdRstctl | .wrRstctl _ => false

/-- The turn would be a step (R9, R11). A refused fetch is a step of SEQ. -/
def enabled (t : Turn) (s : State) : Bool :=
  match t with
  | .seq => seqEnabled s &&
      (match fetch s with
       | none => true
       | some q =>
         match decodeSeq q with
         | .error _ => true
         | .ok i => !seqHolds s i)
  | .bus => !s.wbuf.isEmpty
  | .port _ _ => s.seq.status != .running
  | .pll p => pllEnabled p s.block
  | .xtal => xtalEnabled s.block
  | .rstobs x => rstobsEnabled x s.block
  | .ddrprop => ddrpropEnabled s.block
  | .host _ => hostEnabled s
  | .hostReturn => s.hostPending && runOver s

/-- An infinite run of the machine. -/
def isRun (ex : Nat → State) : Prop := ∀ n, step (ex n) = .next (ex (n + 1))

/-- The seven kinds of agent (R11). -/
inductive Agent where
  | seq
  | bus
  | pll (p : PllId)
  | xtal
  | rstobs (b : SubBlock)
  | ddrprop
  | host
  deriving DecidableEq, Repr

/-- The agent whose move a turn is. HOST calls every lifecycle operation and receives the return of the pending one
(R11); the port belongs to no agent of R11 (log 8). -/
def agentOf : Turn → Option Agent
  | .seq => some .seq
  | .bus => some .bus
  | .port _ _ => none
  | .pll p => some (.pll p)
  | .xtal => some .xtal
  | .rstobs b => some (.rstobs b)
  | .ddrprop => some .ddrprop
  | .host _ => some .host
  | .hostReturn => some .host

/-- An agent that from some point on always has a step eventually takes one; which of its steps is free (R12). -/
def fairTo (a : Agent) (ex : Nat → State) : Prop :=
  ∀ n, (∀ m, n ≤ m → ∃ t, agentOf t = some a ∧ enabled t (ex m) = true) →
    ∃ m, n ≤ m ∧ agentOf (turnOf (ex m)) = some a ∧ enabled (turnOf (ex m)) (ex m) = true

/-- Weak fairness (R12): of every agent, and of `PLL(p)` only where `pllHealthy p` holds (41_pll_lock_detector.md
R100). -/
def weaklyFair (pllHealthy : PllId → Prop) (ex : Nat → State) : Prop :=
  ∀ a, (∀ p, a = .pll p → pllHealthy p) → fairTo a ex

/-- A hang (60_exceptions.md R166): a weakly fair run that stays RUNNING. -/
def hangs (pllHealthy : PllId → Prop) (ex : Nat → State) : Prop :=
  isRun ex ∧ weaklyFair pllHealthy ex ∧ ∃ n, ∀ m, n ≤ m → (ex m).seq.status = .running

/-! ### Relations the statements use -/

/-- `i` executed `k` times in a row, with no other agent between. -/
def execTimes (i : Instr) : Nat → State → Host.Outcome State Fault Refusal
  | 0, s => .next s
  | k + 1, s =>
    match exec i s with
    | .next t => execTimes i k t
    | .fault e => .fault e
    | .refused e => .refused e

/-- From `s` to `t`, the transaction `(r, v)` at the end of the history of `s` recorded exactly the reasons in `why`
(60_exceptions.md R161, R163), and no record was lost. -/
def raisedExactly (why : HazardReason → Prop) (r : Reg) (v : Word) (s t : State) : Prop :=
  ∀ f, f ∈ t.faults ↔
    f ∈ s.faults ∨ (f.reg = r ∧ f.value = v ∧ f.index = s.events.length ∧ why f.reason)

/-- What the read instruction `i` of register `r` does: it holds while a write is pending; otherwise it returns a word
that fits the block and the draw, appends its READ event and changes nothing else (20_memory.md R51, R54). -/
def readsAs (i : Instr) (r : Reg) (fits : Block → (draw : Word) → Word → Prop) : Prop :=
  ∀ s : State,
    (s.wbuf ≠ [] → exec i s = .next s) ∧
    (s.wbuf = [] → ∃ w, fits s.block (Config.freeWord s.draws) w ∧
      exec i s = .next { s with events := s.events ++ [.read r w], draws := s.draws + 1 })

/-- What a performed write of `v` at `r` by instruction `i` does in state `s`: it completes, the block becomes one that
`stores` relates to the old, exactly the reasons `why` are recorded, the WRITE event is appended, and nothing else
changes (20_memory.md R53, 40_register_access.md R82). -/
def writesAs (i : Instr) (r : Reg) (v : Word) (s : State) (stores : Block → Block → Prop)
    (why : HazardReason → Prop) : Prop :=
  ∃ t, exec i s = .next t ∧ stores s.block t.block ∧ raisedExactly why r v s t ∧
    t = { s with block := t.block, faults := t.faults, events := s.events ++ [.write r v] }

end Sys2Proof.Machine
end

