-- ==== Sys2Proof/Certificates/Slice0/Obligations.lean ====
section
/-! DEFINITION. The statements about the machine, one definition each; OBLIGATIONS.json lists them. In each, a word's
fields are read by arithmetic on its value or by single bits, not by the functions the model uses. -/

open Sys2Proof Sys2Proof.Machine

/-! ### Encodings -/

/-- R71, R73, R74: what the encoder writes, the decoder reads back, for every instruction and operand. -/
def Obligations.DecodeInvertsEncode : Prop :=
  ∀ i : Instr, i.wf = true → decode (encode i) = .ok i

/-- R71, R73 to R76: words have one meaning: a sequencer operation that decodes is well formed and its encoding is those
words; so is a bus transaction's header, with the data word of a write (that of a read is ignored, log 19). -/
def Obligations.WordsHaveOneMeaning : Prop :=
  (∀ q i, decodeSeq q = .ok i → i.wf = true ∧ i.isSeq = true ∧ encode i = .seq96 q) ∧
  (∀ h d i, decodeBus h d = .ok i →
    i.isSeq = false ∧ encode i = .bus16 h (if 2 ^ 15 ≤ h.toNat then d else 0))

/-- R72: the checks of a bus descriptor, the first failing one decides, and an admitted one selects its row. -/
def Obligations.BusDecodeChecksInOrder : Prop :=
  ∀ (h : BitVec 16) (d : Word),
    let z := h.toNat / 4096 % 8
    let be := h.toNat / 256 % 16
    let off := h.toNat % 256
    if z ≠ 0 then decodeBus h d = .error .badDescriptor
    else if be ≠ 15 then decodeBus h d = .error .badWidth
    else if off % 4 ≠ 0 then decodeBus h d = .error .misaligned
    else if 0x2C ≤ off then decodeBus h d = .error .offsetOutOfBlock
    else ∃ r : Reg, r.off.toNat = off ∧
      decodeBus h d = .ok (if 2 ^ 15 ≤ h.toNat then Instr.ofWrite r d else Instr.ofRead r)

/-- R74, R76: a reserved operation code, a non-zero unused field and a bad offset are refused, each by its reason, and
everything else is admitted. The order of the last two checks is the model's choice (log 12). -/
def Obligations.SequencerDecodeRefusals : Prop :=
  ∀ q : SeqWords,
    let opc := q.w0.toNat / 2 ^ 24
    let off := q.w0.toNat / 2 ^ 16 % 256
    let aux := q.w0.toNat % 2 ^ 16
    let unused := (4 < opc ∧ off ≠ 0) ∨ (opc ≠ 7 ∧ aux ≠ 0) ∨ (opc ≠ 3 ∧ opc ≠ 4 ∧ q.w1 ≠ 0) ∨
      (opc ≠ 2 ∧ opc ≠ 3 ∧ opc ≠ 4 ∧ opc ≠ 8 ∧ q.w2 ≠ 0)
    if opc = 0 ∨ 0x0A < opc then decodeSeq q = .error .badOpcode
    else if unused then decodeSeq q = .error .badOperand
    else if off % 4 ≠ 0 then decodeSeq q = .error .misaligned
    else if 0x2C ≤ off then decodeSeq q = .error .offsetOutOfBlock
    else ∃ i, decodeSeq q = .ok i

/-- Words written out from R71 and R145, and the instructions they stand for (a sanity statement). -/
def Obligations.SampleWordsDecode : Prop :=
  decodeBus 0x0F00#16 0 = .ok .rdCrystal ∧
  decodeBus 0x8F28#16 0x2F#32 = .ok (.wrRstctl 0x2F#32) ∧
  decodeSeq ⟨0x02040000#32, 0, 0x02110EC0#32⟩ = .ok (.wr .corepll 0x02110EC0#32) ∧
  decodeSeq ⟨0x040C0000#32, 0x80000000#32, 0x80000000#32⟩ = .ok (.poll .ddrpll0 0x80000000#32 0x80000000#32) ∧
  decodeSeq ⟨0x07000100#32, 0, 0⟩ = .ok (.delay 256) ∧
  decodeSeq ⟨0x08000000#32, 0, 0x3B9ACA00#32⟩ = .ok (.notify 1000000000#32) ∧
  decodeSeq ⟨0x05000000#32, 0, 0⟩ = .ok .fence ∧
  decodeSeq ⟨0x0A000000#32, 0, 0⟩ = .ok .ret

/-- R134: a program is admitted exactly if it is not empty, each of its operations decodes, and RET is its last
operation and no other. Any other is refused with the reason of its first failing operation, or with NO_FINAL_RET if none
fails. Loading a launch with such a program sets the mark to that reason, also where it is set already (the latest reason
stays: the model's choice, log 11), and replaces nothing (the model's choice, log 15). -/
def Obligations.ProgramAdmittedExactlyIfWellFormed : Prop :=
  (∀ qs : List SeqWords,
    (∃ is, checkProgram qs = .ok is) ↔
      qs ≠ [] ∧ ∀ k q, qs[k]? = some q → ∃ i, decodeSeq q = .ok i ∧ (i = .ret ↔ k + 1 = qs.length)) ∧
  (∀ (good bad : List SeqWords) (q : SeqWords) (e : RefuseReason),
    (∀ p ∈ good, ∃ i, decodeSeq p = .ok i) → decodeSeq q = .error e → checkProgram (good ++ q :: bad) = .error e) ∧
  (∀ qs : List SeqWords, (∀ q ∈ qs, ∃ i, decodeSeq q = .ok i) →
    ¬ (qs ≠ [] ∧ ∀ k q, qs[k]? = some q → (decodeSeq q = .ok .ret ↔ k + 1 = qs.length)) →
    checkProgram qs = .error .noFinalRet) ∧
  ∀ (s : State) (l : Launch),
    (∀ e, checkProgram l.program = .error e → s.launchWith l = { s with refused := some e }) ∧
    (∀ is, checkProgram l.program = .ok is → s.launchWith l = { s with launch := l })

/-- R16, R45, R46: the addresses that name a word are `BASE + 4*i` for the eleven words, and no others. -/
def Obligations.AddressesOfTheWindow : Prop :=
  ∀ par : Params,
    (∀ r : Reg, regOfAddr par (par.base + r.off.toNat) = .ok r) ∧
    (∀ a, (∃ r, regOfAddr par a = .ok r) ↔ par.base ≤ a ∧ a < par.base + 0x2C ∧ (a - par.base) % 4 = 0)

/-! ### One step

That one step is the move of the agent whose turn the state or the free schedule says it is, and that an agent with no
step leaves all but the turn, is the model's choice (log 1, log 2). -/

/-- R134, log 1: when SEQ moves, runs and has not been refused, and the operation at `seq.pc` decodes, the step is that
instruction's meaning, with the turn used up. -/
def Obligations.StepRunsFetchedOperation : Prop :=
  ∀ s q i, turnOf s = .seq → s.seq.status = .running → s.refused = none →
    s.launch.program[s.seq.pc]? = some q → decodeSeq q = .ok i →
    step s = exec i { s with sched := s.sched.tail, tick := s.tick + 1 }

/-- R134, R140, R165, R76: when SEQ moves: it has no step unless it is RUNNING with nothing refused; a pc outside the
program and an operation that does not decode set the refusal mark. -/
def Obligations.SequencerRefusalsInStep : Prop :=
  ∀ s, turnOf s = .seq →
    (s.seq.status ≠ .running ∨ s.refused ≠ none → step s = .next { s with sched := s.sched.tail, tick := s.tick + 1 }) ∧
    (s.seq.status = .running → s.refused = none → s.launch.program.length ≤ s.seq.pc →
      step s = .next { s with sched := s.sched.tail, tick := s.tick + 1, refused := some .pcOutOfRange }) ∧
    (∀ q e, s.seq.status = .running → s.refused = none → s.launch.program[s.seq.pc]? = some q →
      decodeSeq q = .error e →
      step s = .next { s with sched := s.sched.tail, tick := s.tick + 1, refused := some e })

/-- R72, R155: a transaction presented at the port runs as the instruction it decodes to, or is refused by its reason,
also where something is refused already (the latest reason stays: the model's choice, log 11); while the sequencer runs it
has no effect (the port is the model's choice, log 8). -/
def Obligations.StepRunsPortTransaction : Prop :=
  ∀ s h d, turnOf s = .port h d →
    (∀ i, s.seq.status ≠ .running → decodeBus h d = .ok i →
      step s = exec i { s with sched := s.sched.tail, tick := s.tick + 1 }) ∧
    (∀ e, s.seq.status ≠ .running → decodeBus h d = .error e →
      step s = .next { s with sched := s.sched.tail, tick := s.tick + 1, refused := some e }) ∧
    (s.seq.status = .running → step s = .next { s with sched := s.sched.tail, tick := s.tick + 1 })

/-- R53: the BUS step removes the oldest posted write, performs it by its register's write rule, and appends its WRITE
event; with nothing posted there is no step. -/
def Obligations.BusPerformsOldestWrite : Prop :=
  ∀ s, turnOf s = .bus →
    (s.wbuf = [] → step s = .next { s with sched := s.sched.tail, tick := s.tick + 1 }) ∧
    (∀ r v rest, s.wbuf = (r, v) :: rest →
      ∃ t, step s = .next t ∧
        exec (Instr.ofWrite r v) { s with sched := s.sched.tail, tick := s.tick + 1, wbuf := rest } = .next t ∧
        t.wbuf = rest ∧ t.events = s.events ++ [.write r v])

/-- R86: XTAL makes an enabled oscillator ready, and has no other step. -/
def Obligations.CrystalBecomesReady : Prop :=
  ∀ s, turnOf s = .xtal →
    step s = .next { s with
      sched := s.sched.tail, tick := s.tick + 1
      block := { s.block with
        xtalRdy := if s.block.xtalEn = true ∧ s.block.xtalRdy = false then true else s.block.xtalRdy } }

/-- R100, R106: PLL(p) sets LOCK exactly when it is clear, not bypassed, the crystal is ready and the configuration can
lock, as each PLL's preset can (log 5); nothing else changes. R93: in bypass the output is the reference clock, and the
detector has no step. R96: otherwise the output glitches before that step, and is the multiplied clock after it. -/
def Obligations.PllLocksWhenEnabled : Prop :=
  (∀ p, pllCanLock p
    (pllOfWord (match p with | .core => 0x02110EC0#32 | .ddr => 0x02110DC0#32 | .eth => 0x02128EC0#32)).lockCfg = true) ∧
  ∀ s p, turnOf s = .pll p →
    let P := s.block.pll p
    let go := P.lock = false ∧ P.bypass = false ∧ s.block.xtalRdy = true ∧ pllCanLock p P.lockCfg = true
    (go → P.output = .glitching ∧ ({ P with lock := true } : Pll).output = .multiplied ∧ step s = .next { s with
        sched := s.sched.tail, tick := s.tick + 1, block := s.block.setPll p { P with lock := true } }) ∧
    (P.bypass = true → P.output = .reference ∧
      step s = .next { s with sched := s.sched.tail, tick := s.tick + 1 }) ∧
    (¬ go → step s = .next { s with sched := s.sched.tail, tick := s.tick + 1 })

/-- R120, R122: RSTOBS(x) makes a released line observed; when that completes the observation of the DDR lines while
propagation is idle, propagation starts, or is done at once if its bound is 0. -/
def Obligations.SubBlockObservesRelease : Prop :=
  ∀ s x, turnOf s = .rstobs x →
    (¬ (s.block.rst.get x = true ∧ s.block.obs.get x = false) →
      step s = .next { s with sched := s.sched.tail, tick := s.tick + 1 }) ∧
    (s.block.rst.get x = true ∧ s.block.obs.get x = false →
      ∃ t, step s = .next t ∧
        t = { s with sched := s.sched.tail, tick := s.tick + 1, block := { s.block with
          obs := t.block.obs, ddrprop := t.block.ddrprop } } ∧
        (∀ y, t.block.obs.get y = if y = x then true else s.block.obs.get y) ∧
        t.block.ddrprop =
          if x ≠ SubBlock.eth ∧ (t.block.obs.ddrCtrl = true ∧ t.block.obs.ddrAxi = true ∧ t.block.obs.ddrAhb = true ∧
              t.block.obs.ddrPhy = true) ∧ s.block.ddrprop = DdrProp.idle then
            (if s.par.resetPropNops = 0 then .done else .propagating 0)
          else s.block.ddrprop)

/-- R123: DDRPROP may complete a propagation that has started, and has no other step. -/
def Obligations.PropagationMayCompleteEarly : Prop :=
  ∀ s, turnOf s = .ddrprop →
    (∀ n, s.block.ddrprop = .propagating n →
      step s = .next { s with sched := s.sched.tail, tick := s.tick + 1, block := { s.block with ddrprop := .done } }) ∧
    ((∀ n, s.block.ddrprop ≠ .propagating n) → step s = .next { s with sched := s.sched.tail, tick := s.tick + 1 })

/-- R150, R151, R152, R153: init, read, shutdown and a write of any payload but the two bytes "on" change nothing but
the history. R155: while the sequencer runs the host has no step, nor (log 9) while a write of "on" is pending (log 2). -/
def Obligations.HostOperationsWithoutEffect : Prop :=
  ∀ s op, turnOf s = .host op → op ≠ .write [0x6F#8, 0x6E#8] →
    (s.seq.status ≠ .running → s.hostPending = false → step s = .next { s with
      sched := s.sched.tail, tick := s.tick + 1
      events := s.events ++ [.host op (match op with
        | .init => .okUnit
        | .read => .errNotImplemented
        | .shutdown => .okUnit
        | .write _ => .ok 0)] }) ∧
    (s.seq.status = .running ∨ s.hostPending = true →
      step s = .next { s with sched := s.sched.tail, tick := s.tick + 1 })

/-- R152, R154: the first write of "on" starts the sequencer at operation 0 and stays pending; a second one is refused,
also where something is refused already (the latest reason stays: the model's choice, log 11), with no other effect
(log 9). R155: while the sequencer runs the host has no step, nor (log 9) while the first write is pending (log 2). -/
def Obligations.HostWriteOnStartsOnce : Prop :=
  ∀ s, turnOf s = .host (.write [0x6F#8, 0x6E#8]) →
    (s.seq.status ≠ .running → s.hostPending = false → s.seq.ranOnce = false → step s = .next { s with
      sched := s.sched.tail, tick := s.tick + 1, hostPending := true
      seq := { s.seq with ranOnce := true, pc := 0, status := .running } }) ∧
    (s.seq.status ≠ .running → s.hostPending = false → s.seq.ranOnce = true → step s = .next { s with
      sched := s.sched.tail, tick := s.tick + 1, refused := some .reinit }) ∧
    (s.seq.status = .running ∨ s.hostPending = true →
      step s = .next { s with sched := s.sched.tail, tick := s.tick + 1 })

/-- R152, R156: the pending write of "on" returns Ok(1) exactly when the status is DONE, no write is pending and every
line is observed (log 10), whatever faults were recorded (R176); with none pending nothing returns (log 2). -/
def Obligations.HostWriteReturnsAtEndOfRun : Prop :=
  ∀ s, turnOf s = .hostReturn →
    let ended := s.seq.status = .done ∧ s.wbuf = [] ∧ ∀ x, s.block.obs.get x = s.block.rst.get x
    (s.hostPending = true → ended → step s = .next { s with
      sched := s.sched.tail, tick := s.tick + 1, hostPending := false
      events := s.events ++ [.host (.write [0x6F#8, 0x6E#8]) (.ok 1)] }) ∧
    (¬ (s.hostPending = true ∧ ended) → step s = .next { s with sched := s.sched.tail, tick := s.tick + 1 })

/-! ### Bus transactions: reads

A draw is a bit of the free word that the state's counter names (log 3); each statement holds whatever that word is. -/

/-- R83: RD Crystal. -/
def Obligations.ReadCrystal : Prop :=
  (∀ d, decodeBus 0x0F00#16 d = .ok .rdCrystal) ∧
  readsAs .rdCrystal .crystal fun b d w =>
    w.getLsbD 31 = b.xtalEn ∧ w.getLsbD 30 = b.xtalRdy ∧ ∀ k, k < 30 → w.getLsbD k = d.getLsbD k

/-- R91, R99: RD CorePLLConfig, DDRPLLConfig0 and EthPLLConfig0. -/
def Obligations.ReadPllConfig : Prop :=
  let fits (P : Pll) (d w : Word) : Prop :=
    w.toNat % 64 = P.divr.toNat ∧ w.toNat / 64 % 512 = P.divf.toNat ∧ w.toNat / 2 ^ 15 % 8 = P.divq.toNat ∧
    w.toNat / 2 ^ 18 % 8 = P.range.toNat ∧ w.getLsbD 24 = P.bypass ∧ w.getLsbD 25 = P.fse ∧
    w.getLsbD 31 = (if P.bypass = true then d.getLsbD 31 else P.lock) ∧
    ∀ k, (21 ≤ k ∧ k ≤ 23) ∨ (26 ≤ k ∧ k ≤ 30) → w.getLsbD k = d.getLsbD k
  (∀ d, decodeBus 0x0F04#16 d = .ok .rdCorepll ∧ decodeBus 0x0F0C#16 d = .ok .rdDdrpll0 ∧
    decodeBus 0x0F1C#16 d = .ok .rdEthpll0) ∧
  readsAs .rdCorepll .corepll (fun b => fits b.core) ∧
  readsAs .rdDdrpll0 .ddrpll0 (fun b => fits b.ddr) ∧
  readsAs .rdEthpll0 .ethpll0 (fun b => fits b.eth)

/-- R98: RD DDRPLLConfig1 and EthPLLConfig1. -/
def Obligations.ReadOutputEnable : Prop :=
  let fits (x : OeBits) (d w : Word) : Prop :=
    w.getLsbD 31 = x.b31 ∧ w.getLsbD 24 = x.b24 ∧ ∀ k, k < 31 → k ≠ 24 → w.getLsbD k = d.getLsbD k
  (∀ d, decodeBus 0x0F10#16 d = .ok .rdDdrpll1 ∧ decodeBus 0x0F20#16 d = .ok .rdEthpll1) ∧
  readsAs .rdDdrpll1 .ddrpll1 (fun b => fits b.oeDdr) ∧
  readsAs .rdEthpll1 .ethpll1 (fun b => fits b.oeEth)

/-- R107: RD ClockSelect. -/
def Obligations.ReadClockSelect : Prop :=
  (∀ d, decodeBus 0x0F24#16 d = .ok .rdClksel) ∧
  readsAs .rdClksel .clksel fun b d w =>
    w.getLsbD 0 = b.sel ∧ ∀ k, 1 ≤ k → k < 32 → w.getLsbD k = d.getLsbD k

/-- R115, R116: RD ResetControl returns the register lines. -/
def Obligations.ReadResetControl : Prop :=
  (∀ d, decodeBus 0x0F28#16 d = .ok .rdRstctl) ∧
  readsAs .rdRstctl .rstctl fun b d w =>
    w.getLsbD 0 = b.rst.ddrCtrl ∧ w.getLsbD 1 = b.rst.ddrAxi ∧ w.getLsbD 2 = b.rst.ddrAhb ∧
    w.getLsbD 3 = b.rst.ddrPhy ∧ w.getLsbD 5 = b.rst.eth ∧
    ∀ k, k = 4 ∨ (6 ≤ k ∧ k < 32) → w.getLsbD k = d.getLsbD k

/-- R88, R89, R161: every access to a reserved word records RESERVED_ACCESS with the transaction's value and the index of
its event; a read returns the draw, a write changes no register. That the value of a read is the word it returns, and its
index that of its own event, is deduced from R161 (log 13). -/
def Obligations.ReservedWordAccessFaults : Prop :=
  ∀ r hr hw ir iw,
    (r, hr, hw, ir, iw) ∈ [(Reg.rsvd08, 0x0F08#16, 0x8F08#16, Instr.rdRsvd08, Instr.wrRsvd08),
      (Reg.rsvd14, 0x0F14#16, 0x8F14#16, Instr.rdRsvd14, Instr.wrRsvd14),
      (Reg.rsvd18, 0x0F18#16, 0x8F18#16, Instr.rdRsvd18, Instr.wrRsvd18)] →
    (∀ d, decodeBus hr d = .ok ir ∧ decodeBus hw d = .ok (iw d)) ∧
    ∀ s : State,
      (s.wbuf ≠ [] → exec ir s = .next s) ∧
      (s.wbuf = [] → ∃ t, exec ir s = .next t ∧
        raisedExactly (· = .reservedAccess r) r (Config.freeWord s.draws) s t ∧
        t = { s with
          faults := t.faults, events := s.events ++ [.read r (Config.freeWord s.draws)], draws := s.draws + 1 }) ∧
      ∀ v, writesAs (iw v) r v s (fun b b' => b' = b) (· = .reservedAccess r)

/-! ### Bus transactions: performed writes -/

/-- R84, R85, R87: WR Crystal. -/
def Obligations.WriteCrystal : Prop :=
  (∀ v, decodeBus 0x8F00#16 v = .ok (.wrCrystal v)) ∧
  ∀ s v, writesAs (.wrCrystal v) .crystal v s
    (fun b b' => b' = { b with
      xtalEn := v.getLsbD 31, xtalRdy := if v.getLsbD 31 = true then b.xtalRdy else false })
    (fun h => h = .xtalDisabledInUse ∧ s.block.xtalEn = true ∧ v.getLsbD 31 = false)

/-- R92, R94, R95, R110: WR CorePLLConfig, DDRPLLConfig0 and EthPLLConfig0. -/
def Obligations.WritePllConfig : Prop :=
  let stored (v : Word) (P : Pll) : Prop :=
    P.divr.toNat = v.toNat % 64 ∧ P.divf.toNat = v.toNat / 64 % 512 ∧ P.divq.toNat = v.toNat / 2 ^ 15 % 8 ∧
    P.range.toNat = v.toNat / 2 ^ 18 % 8 ∧ P.bypass = v.getLsbD 24 ∧ P.fse = v.getLsbD 25 ∧ P.lock = false
  (∀ v, decodeBus 0x8F04#16 v = .ok (.wrCorepll v) ∧ decodeBus 0x8F0C#16 v = .ok (.wrDdrpll0 v) ∧
    decodeBus 0x8F1C#16 v = .ok (.wrEthpll0 v)) ∧
  ∀ (s : State) (v : Word),
    writesAs (.wrCorepll v) .corepll v s (fun b b' => stored v b'.core ∧ b' = { b with core := b'.core })
      (fun h => h = .coreReconfigWhileSelected ∧ s.block.sel = false) ∧
    writesAs (.wrDdrpll0 v) .ddrpll0 v s (fun b b' => stored v b'.ddr ∧ b' = { b with ddr := b'.ddr })
      (fun h => (h = .reconfigWhileActive .ddr ∧ ∃ x, x ≠ .eth ∧ (s.block.rst.get x = true ∨ s.block.obs.get x = true)) ∨
        (h = .reconfigWhileOutputEnabled .ddr ∧ s.block.oeDdr.b31 = true)) ∧
    writesAs (.wrEthpll0 v) .ethpll0 v s (fun b b' => stored v b'.eth ∧ b' = { b with eth := b'.eth })
      (fun h => (h = .reconfigWhileActive .eth ∧ (s.block.rst.eth = true ∨ s.block.obs.eth = true)) ∨
        (h = .reconfigWhileOutputEnabled .eth ∧
          (match s.par.ckeBitEth with | .bit24 => s.block.oeEth.b24 | .bit31 => s.block.oeEth.b31) = true))

/-- R102, R103, R94, R21, R186: WR DDRPLLConfig1 and EthPLLConfig1. Bit 31 alone is the DDR output enable; for Ethernet
the parameter says which bit it is. -/
def Obligations.WriteOutputEnable : Prop :=
  (∀ v, decodeBus 0x8F10#16 v = .ok (.wrDdrpll1 v) ∧ decodeBus 0x8F20#16 v = .ok (.wrEthpll1 v)) ∧
  ∀ (s : State) (v : Word),
    writesAs (.wrDdrpll1 v) .ddrpll1 v s
      (fun b b' => b' = { b with oeDdr := { b31 := v.getLsbD 31, b24 := v.getLsbD 24 } } ∧
        oe s.par b' .ddr = v.getLsbD 31)
      (fun h => (h = .reconfigWhileActive .ddr ∧ ∃ x, x ≠ .eth ∧ (s.block.rst.get x = true ∨ s.block.obs.get x = true)) ∨
        (h = .outputEnabledUnlocked .ddr ∧ v.getLsbD 31 = true ∧
          s.block.ddr.bypass = false ∧ s.block.ddr.lock = false)) ∧
    writesAs (.wrEthpll1 v) .ethpll1 v s
      (fun b b' => b' = { b with oeEth := { b31 := v.getLsbD 31, b24 := v.getLsbD 24 } } ∧
        oe s.par b' .eth = v.getLsbD (match s.par.ckeBitEth with | .bit24 => 24 | .bit31 => 31))
      (fun h => (h = .reconfigWhileActive .eth ∧ (s.block.rst.eth = true ∨ s.block.obs.eth = true)) ∨
        (h = .outputEnabledUnlocked .eth ∧
          v.getLsbD (match s.par.ckeBitEth with | .bit24 => 24 | .bit31 => 31) = true ∧
          s.block.eth.bypass = false ∧ s.block.eth.lock = false))

/-- R108, R109, R111, R112: WR ClockSelect; the core source is the new one in the same step, and a bypassed core PLL that
is selected gives the core the reference clock. -/
def Obligations.WriteClockSelect : Prop :=
  (∀ v, decodeBus 0x8F24#16 v = .ok (.wrClksel v)) ∧
  ∀ (s : State) (v : Word),
    writesAs (.wrClksel v) .clksel v s
      (fun b b' => b' = { b with sel := v.getLsbD 0 } ∧
        (coreSrc b' = if v.getLsbD 0 = true then .crystal else .corePll) ∧
        (v.getLsbD 0 = false → b.core.bypass = true → coreClock b' = .pll .reference))
      (fun h => (h = .selectUnstablePll ∧ v.getLsbD 0 = false ∧ s.block.core.bypass = false ∧
          s.block.core.lock = false) ∨
        (h = .selectUnreadyCrystal ∧ v.getLsbD 0 = true ∧ s.block.xtalRdy = false))

/-- R114, R116, R117, R118, R119: WR ResetControl. -/
def Obligations.WriteResetControl : Prop :=
  (∀ v, decodeBus 0x8F28#16 v = .ok (.wrRstctl v)) ∧
  ∀ (s : State) (v : Word),
    let bit (x : SubBlock) : Bool := v.getLsbD (match x with
      | .ddrCtrl => 0 | .ddrAxi => 1 | .ddrAhb => 2 | .ddrPhy => 3 | .eth => 5)
    writesAs (.wrRstctl v) .rstctl v s
      (fun b b' => (∀ x, b'.rst.get x = bit x) ∧ (∀ x, b'.obs.get x = (if bit x = true then b.obs.get x else false)) ∧
        b'.ddrprop = (if bit .ddrCtrl = true ∧ bit .ddrAxi = true ∧ bit .ddrAhb = true ∧ bit .ddrPhy = true then b.ddrprop
          else .idle) ∧
        b' = { b with rst := b'.rst, obs := b'.obs, ddrprop := b'.ddrprop })
      (fun h => h = .ddrReleaseOrder ∧ s.block.obs.ddrCtrl = false ∧
        ∃ x, (x = .ddrAxi ∨ x = .ddrAhb ∨ x = .ddrPhy) ∧ s.block.rst.get x = false ∧ bit x = true)

/-- R118: a ResetControl write that releases no line records no fault, in any state. -/
def Obligations.AssertionHasNoHazard : Prop :=
  ∀ (s : State) (v : Word), v &&& 0x2F#32 &&& ~~~s.block.rst.word = 0#32 →
    ∃ t, exec (.wrRstctl v) s = .next t ∧ t.faults = s.faults

/-- R82, R90: the read-only and reserved bits of a written word do not matter to the block or to the reasons
recorded. -/
def Obligations.IgnoredBitsOfAWriteDoNotMatter : Prop :=
  ∀ (s : State) (r : Reg) (v v' : Word),
    let rw : Word := match r with
      | .crystal => 0x80000000#32
      | .corepll | .ddrpll0 | .ethpll0 => 0x031FFFFF#32
      | .ddrpll1 | .ethpll1 => 0x81000000#32
      | .clksel => 0x00000001#32
      | .rstctl => 0x0000002F#32
      | .rsvd08 | .rsvd14 | .rsvd18 => 0x00000000#32
    v &&& rw = v' &&& rw →
    ∃ t t', exec (Instr.ofWrite r v) s = .next t ∧ exec (Instr.ofWrite r v') s = .next t' ∧ t.block = t'.block ∧
      ∀ h, (∃ f ∈ t.faults, f.reason = h) ↔ (∃ f ∈ t'.faults, f.reason = h)

/-- R81, R82: reads and writes agree on every field: writing back the word that a read returned leaves the block as it
was, but for the LOCK bit that a cfg0 write clears (R92). -/
def Obligations.WriteBackOfReadWordKeepsRegister : Prop :=
  ∀ (s : State) (r : Reg), s.wbuf = [] → blockInv s.par s.block → r ≠ .rsvd08 → r ≠ .rsvd14 → r ≠ .rsvd18 →
    ∃ u w t, exec (Instr.ofRead r) s = .next u ∧ u.events = s.events ++ [.read r w] ∧
      exec (Instr.ofWrite r w) u = .next t ∧
      t.block = match r with
        | .corepll => { s.block with core := { s.block.core with lock := false } }
        | .ddrpll0 => { s.block with ddr := { s.block.ddr with lock := false } }
        | .ethpll0 => { s.block with eth := { s.block.eth with lock := false } }
        | _ => s.block

/-! ### Sequencer operations -/

/-- R135: RD holds while a write is pending; otherwise it is the register's read transaction, and pc advances. -/
def Obligations.SequencerRead : Prop :=
  ∀ (s : State) (r : Reg),
    decodeSeq ⟨BitVec.ofNat 32 (0x01000000 + r.off.toNat * 2 ^ 16), 0, 0⟩ = .ok (.rd r) ∧
    (s.wbuf ≠ [] → exec (.rd r) s = .next s) ∧
    (s.wbuf = [] → ∃ u, exec (Instr.ofRead r) s = .next u ∧ u.seq = s.seq ∧
      exec (.rd r) s = .next { u with seq := { s.seq with pc := s.seq.pc + 1 } })

/-- R136, R52: WR posts its write and advances while there is room, and holds while there is none. -/
def Obligations.SequencerWrite : Prop :=
  ∀ (s : State) (r : Reg) (v : Word),
    decodeSeq ⟨BitVec.ofNat 32 (0x02000000 + r.off.toNat * 2 ^ 16), 0, v⟩ = .ok (.wr r v) ∧
    (s.wbuf.length < s.par.wbufDepth →
      exec (.wr r v) s = .next { s with
        wbuf := s.wbuf ++ [(r, v)], seq := { s.seq with pc := s.seq.pc + 1 } }) ∧
    (s.par.wbufDepth ≤ s.wbuf.length → exec (.wr r v) s = .next s)

/-- R137: MODIFY is the read transaction and then a posted write of the read word with the bits inside MASK from VALUE;
it holds, with neither half done (log 20), while a write is pending or the buffer is full. With nothing pending there is
room, since WBUF_DEPTH is at least 1 (R6). -/
def Obligations.SequencerModify : Prop :=
  ∀ (s : State) (r : Reg) (m v : Word),
    decodeSeq ⟨BitVec.ofNat 32 (0x03000000 + r.off.toNat * 2 ^ 16), m, v⟩ = .ok (.modify r m v) ∧
    (s.wbuf ≠ [] ∨ s.par.wbufDepth ≤ s.wbuf.length → exec (.modify r m v) s = .next s) ∧
    (s.wbuf = [] →
      ∃ u w x, exec (Instr.ofRead r) s = .next u ∧ u.events = s.events ++ [.read r w] ∧
        (∀ k, k < 32 → x.getLsbD k = if m.getLsbD k = true then v.getLsbD k else w.getLsbD k) ∧
        exec (.modify r m v) s = .next { u with
          wbuf := [(r, x)], seq := { s.seq with pc := s.seq.pc + 1 } })

/-- R138: POLL is the read transaction; pc advances exactly if the masked word equals VALUE; it holds while a write is
pending. -/
def Obligations.SequencerPoll : Prop :=
  ∀ (s : State) (r : Reg) (m v : Word),
    decodeSeq ⟨BitVec.ofNat 32 (0x04000000 + r.off.toNat * 2 ^ 16), m, v⟩ = .ok (.poll r m v) ∧
    (s.wbuf ≠ [] → exec (.poll r m v) s = .next s) ∧
    (s.wbuf = [] →
      ∃ u w, exec (Instr.ofRead r) s = .next u ∧ u.events = s.events ++ [.read r w] ∧
        exec (.poll r m v) s = .next { u with
          seq := { s.seq with pc := if w &&& m = v then s.seq.pc + 1 else s.seq.pc } })

/-- R138, R80: a POLL whose VALUE has a bit outside MASK never advances; one with MASK and VALUE 0 advances at its first
read. -/
def Obligations.PollThatCannotMatchSpins : Prop :=
  ∀ (s : State) (r : Reg) (m v : Word),
    (v &&& ~~~m ≠ 0#32 → ∃ t, exec (.poll r m v) s = .next t ∧ t.seq = s.seq) ∧
    (s.wbuf = [] → ∃ t, exec (.poll r 0#32 0#32) s = .next t ∧ t.seq = { s.seq with pc := s.seq.pc + 1 })

/-- R127, R131: FENCE completes exactly if no write is pending and every sub-block has observed its line; otherwise it
holds. Lock, crystal and propagation do not matter. -/
def Obligations.FenceWaitsForWritesAndObservation : Prop :=
  decodeSeq ⟨0x05000000#32, 0, 0⟩ = .ok .fence ∧
  ∀ s : State,
    let ready := s.wbuf = [] ∧ ∀ x, s.block.obs.get x = s.block.rst.get x
    (ready → exec .fence s = .next { s with
      events := s.events ++ [.fence], seq := { s.seq with pc := s.seq.pc + 1 } }) ∧
    (¬ ready → exec .fence s = .next s)

/-- R128, R124: NOP retires one no-op and counts it toward a propagation in progress. -/
def Obligations.NopCountsTowardPropagation : Prop :=
  decodeSeq ⟨0x06000000#32, 0, 0⟩ = .ok .nop ∧
  ∀ s : State, exec .nop s = .next { s with
    seq := { s.seq with nops := s.seq.nops + 1, pc := s.seq.pc + 1 }
    block := { s.block with ddrprop := match s.block.ddrprop with
      | .propagating n => if s.par.resetPropNops ≤ n + 1 then .done else .propagating (n + 1)
      | p => p } }

/-- R129: one step of DELAY n, which counts from `n` unless a count is in progress. -/
def Obligations.DelayStep : Prop :=
  (∀ n, n < 65536 → decodeSeq ⟨BitVec.ofNat 32 (0x07000000 + n), 0, 0⟩ = .ok (.delay n)) ∧
  ∀ (s : State) (n : Nat),
    let c := match s.seq.delayCtr with | none => n | some c => c
    (c = 0 → exec (.delay n) s = .next { s with
      seq := { s.seq with delayCtr := none, pc := s.seq.pc + 1 } }) ∧
    (c ≠ 0 → ∃ u, exec .nop s = .next u ∧
      exec (.delay n) s = .next { u with
        seq := { u.seq with
          pc := if c = 1 then s.seq.pc + 1 else s.seq.pc
          delayCtr := if c = 1 then none else some (c - 1) } })

/-- R129, R130: DELAY n with n at least 1 takes exactly n steps, and those do what n NOPs do but for the pc, which moves
only at the last. -/
def Obligations.DelayTakesExactlyItsCount : Prop :=
  ∀ (s : State) (n k : Nat), s.seq.delayCtr = none → 1 ≤ k → k ≤ n →
    ∃ t u, execTimes (.delay n) k s = .next t ∧ execTimes .nop k s = .next u ∧
      t = { u with seq := { u.seq with
        pc := if k = n then s.seq.pc + 1 else s.seq.pc
        delayCtr := if k = n then none else some (n - k) } }

/-- R124, R129, R183: a DELAY of at least RESET_PROP_NOPS no-ops outlasts a propagation that has just started. -/
def Obligations.DelayOutlastsPropagation : Prop :=
  ∀ (s : State) (n : Nat), s.seq.delayCtr = none → s.block.ddrprop = .propagating 0 → 1 ≤ n → s.par.resetPropNops ≤ n →
    ∃ t, execTimes (.delay n) n s = .next t ∧ t.block.ddrprop = .done ∧ t.seq.pc = s.seq.pc + 1 ∧
      t.seq.nops = s.seq.nops + n

/-- R142, R143: NOTIFY appends one event per consumer, in list order, and touches nothing else. -/
def Obligations.NotifyEveryConsumerInOrder : Prop :=
  (∀ rate, decodeSeq ⟨0x08000000#32, 0, rate⟩ = .ok (.notify rate)) ∧
  ∀ (s : State) (rate : Word), ∃ new : List Event,
    exec (.notify rate) s = .next { s with
      events := s.events ++ new, seq := { s.seq with pc := s.seq.pc + 1 } } ∧
    new.length = s.launch.consumers.length ∧
    ∀ (k c : Nat), s.launch.consumers[k]? = some c → new[k]? = some (Event.notify c rate)

/-- R144: EXIT_IF_EMU records the answer and goes to the program's last operation if it is true. -/
def Obligations.ExitIfEmulated : Prop :=
  decodeSeq ⟨0x09000000#32, 0, 0⟩ = .ok .exitIfEmu ∧
  ∀ s : State, exec .exitIfEmu s = .next { s with
    events := s.events ++ [.envQuery s.launch.emulated]
    seq := { s.seq with
      pc := if s.launch.emulated = true then s.launch.program.length - 1 else s.seq.pc + 1 } }

/-- R139: RET ends the run; pc stays, and pending writes stay pending. -/
def Obligations.RetEndsTheRun : Prop :=
  decodeSeq ⟨0x0A000000#32, 0, 0⟩ = .ok .ret ∧
  ∀ s : State, exec .ret s = .next { s with
    events := s.events ++ [.ret], seq := { s.seq with status := .done } }

/-! ### Invariants -/

/-- R39 to R44: the state after reset, for every draw, part and launch; `State.reset` is one of them (its draws,
parameters and launch are the model's choice, log 4, 6, 7). -/
def Obligations.ResetState : Prop :=
  (∀ par launch d, let s := State.resetWith par launch d
    s.block.xtalEn = true ∧ s.block.xtalRdy = true ∧ s.block.sel = true ∧
    s.block.core = d.core ∧ s.block.ddr = d.ddr ∧ s.block.eth = d.eth ∧
    s.block.oeDdr = d.oeDdr ∧ s.block.oeEth = d.oeEth ∧ s.block.rst = d.rst ∧
    (∀ x, s.block.obs.get x = s.block.rst.get x) ∧
    s.block.ddrprop = (if d.rst.ddrCtrl = true ∧ d.rst.ddrAxi = true ∧ d.rst.ddrAhb = true ∧ d.rst.ddrPhy = true
      then DdrProp.done else DdrProp.idle) ∧
    s.wbuf = [] ∧ s.faults = [] ∧ s.refused = none ∧ s.events = [] ∧
    s.seq = { pc := 0, status := .idle, delayCtr := none, nops := 0, ranOnce := false }) ∧
  ∃ par launch d, State.reset = State.resetWith par launch d

/-- Every reset state meets the invariants of the block, the buffer, the sequencer and the faults; the program invariant
holds there exactly if the program is well formed. -/
def Obligations.ResetMeetsInvariants : Prop :=
  ∀ par launch d, let s := State.resetWith par launch d
    blockInv s.par s.block ∧ bufferInv s ∧ seqInv s ∧ faultsInv s ∧
    (programInv s ↔ ∃ is, checkProgram launch.program = .ok is) ∧ programInv State.reset

/-- R26, R27, R87, R119 to R124: every step keeps the invariant of the block. -/
def Obligations.EveryStepKeepsBlockInvariant : Prop :=
  ∀ s t, blockInv s.par s.block → step s = .next t → blockInv t.par t.block

/-- R28, R52: every step keeps the posted writes within WBUF_DEPTH. -/
def Obligations.EveryStepKeepsBufferBound : Prop :=
  ∀ s t, bufferInv s → step s = .next t → bufferInv t

/-- R29, R132, R141, R152: every step keeps the sequencer's invariant. -/
def Obligations.EveryStepKeepsSequencerInvariant : Prop :=
  ∀ s t, seqInv s → step s = .next t → seqInv t

/-- R134, R140: with a well-formed program every step keeps pc at one of its operations while RUNNING, and none is
refused for its pc or its encoding. -/
def Obligations.WellFormedProgramStaysInRange : Prop :=
  ∀ s t, programInv s → step s = .next t →
    programInv t ∧ (turnOf s = .seq → t.refused = s.refused)

/-- R161: every step keeps each fault record naming a transaction of the history. For a read that is the word returned and
the index of its own READ event, as deduced from R161 (log 13); that no record stands twice is the list's form of the
spec's set (log 16). -/
def Obligations.EveryStepKeepsFaultRecords : Prop :=
  ∀ s t, faultsInv s → step s = .next t → faultsInv t

/-! ### Whole-machine rules -/

/-- Every state has a next state. R161, R167 and R168 say that no fault, interrupt or trap stops an agent; that the step
then never stops is deduced (log 16), and in the turn of an agent that holds or has no step (R9) it is the model's choice
that the machine pauses (log 1, log 2). -/
def Obligations.MachineNeverStops : Prop :=
  ∀ s, ∃ t, step s = .next t

/-- R30, R31, R32, R161, R165: the history only grows, no fault is removed, a refusal is never lifted, and no step
writes the launch or the parameters. -/
def Obligations.RecordsAreSticky : Prop :=
  ∀ s t, step s = .next t →
    s.events <+: t.events ∧ s.faults <+: t.faults ∧ (s.refused ≠ none → t.refused ≠ none) ∧
    t.launch = s.launch ∧ t.par = s.par

/-- R141: the status moves from IDLE to RUNNING only by the host's write of "on" (R152), from RUNNING to DONE only by SEQ
at an operation that decodes to RET (R139), and never otherwise, from any state in which the run flag records the start (R29). -/
def Obligations.StatusMovesOnlyForward : Prop :=
  ∀ s t, seqInv s → step s = .next t → t.seq.status ≠ s.seq.status →
    (s.seq.status = .idle ∧ t.seq.status = .running ∧ turnOf s = .host (.write [0x6F#8, 0x6E#8])) ∨
    (s.seq.status = .running ∧ t.seq.status = .done ∧ turnOf s = .seq ∧
      ∃ q, s.launch.program[s.seq.pc]? = some q ∧ decodeSeq q = .ok .ret)

/-- R19, R101: LOCK is set only by its detector, and cleared only by a performed write of cfg0(p). -/
def Obligations.LockChangesOnlyByDetectorOrWrite : Prop :=
  ∀ s t p, step s = .next t →
    ((s.block.pll p).lock = false → (t.block.pll p).lock = true → turnOf s = .pll p) ∧
    ((s.block.pll p).lock = true → (t.block.pll p).lock = false →
      ∃ v, t.events = s.events ++ [.write (match p with | .core => .corepll | .ddr => .ddrpll0 | .eth => .ethpll0) v])

/-- R50, R51, R82: what the registers store changes only in a step that performs a write. -/
def Obligations.RegistersChangeOnlyByPerformedWrites : Prop :=
  ∀ s t, step s = .next t → (∀ r v, t.events ≠ s.events ++ [.write r v]) →
    t.block.xtalEn = s.block.xtalEn ∧ t.block.sel = s.block.sel ∧ t.block.rst = s.block.rst ∧
    t.block.oeDdr = s.block.oeDdr ∧ t.block.oeEth = s.block.oeEth ∧
    ∀ p, (t.block.pll p).word = (s.block.pll p).word

/-- R38, R113, R115, R125: no operation of the sequencer depends on what the sub-blocks have observed, except FENCE, or
on DDR propagation. -/
def Obligations.HiddenStateIsInvisibleToOperations : Prop :=
  ∀ (s : State) (i : Instr) (o : Lines) (d : DdrProp), i.isSeq = true → (i = .fence → o = s.block.obs) →
    ∃ t t', exec i s = .next t ∧
      exec i { s with block := { s.block with obs := o, ddrprop := d } } = .next t' ∧
      t'.seq = t.seq ∧ t'.events = t.events ∧ t'.wbuf = t.wbuf ∧ t'.faults = t.faults

/-- R127, R53, R120, R182: if by the schedule (log 1) BUS performs what is pending, each sub-block observes its line and SEQ then moves, a FENCE
has completed, with the pending writes performed in their order before it. -/
def Obligations.FenceCompletesAfterPendingWork : Prop :=
  ∀ (s : State) (q : SeqWords), blockInv s.par s.block → s.seq.status = .running → s.refused = none →
    s.launch.program[s.seq.pc]? = some q → decodeSeq q = .ok .fence →
    s.sched = List.replicate s.wbuf.length .bus ++
      [.rstobs .ddrCtrl, .rstobs .ddrAxi, .rstobs .ddrAhb, .rstobs .ddrPhy, .rstobs .eth, .seq] →
    ∃ t, Sys2Proof.core.run (s.wbuf.length + 6) s = .next t ∧ t.seq = { s.seq with pc := s.seq.pc + 1 } ∧
      t.events = s.events ++ s.wbuf.map (fun x => .write x.1 x.2) ++ [.fence] ∧ t.wbuf = [] ∧
      ∀ x, t.block.obs.get x = t.block.rst.get x

/-- R100, R138, R160: a POLL on the LOCK bit of a PLL that is not bypassed spins while the bit is clear, and advances at
the first read after the detector has stepped. -/
def Obligations.LockPollWaitsForDetector : Prop :=
  ∀ (s : State) (p : PllId), s.wbuf = [] → (s.block.pll p).bypass = false → (s.block.pll p).lock = false →
    let r : Reg := match p with | .core => .corepll | .ddr => .ddrpll0 | .eth => .ethpll0
    (∃ t, exec (.poll r 0x80000000#32 0x80000000#32) s = .next t ∧ t.seq.pc = s.seq.pc) ∧
    (s.block.xtalRdy = true → pllCanLock p (s.block.pll p).lockCfg = true → turnOf s = .pll p →
      ∃ u t, step s = .next u ∧ exec (.poll r 0x80000000#32 0x80000000#32) u = .next t ∧ t.seq.pc = s.seq.pc + 1)
end

