-- ==== Sys2Proof/Laws/State.lean ====
section
/-! SUPPORT. What each update of the state does to each of its fields, so that no proof unfolds an update; and the
accessors of the block. -/

namespace Sys2Proof.Machine

/-! ### `State.log` -/

@[simp] theorem State.log_par (s : State) (e : Event) : (s.log e).par = s.par := rfl
@[simp] theorem State.log_launch (s : State) (e : Event) : (s.log e).launch = s.launch := rfl
@[simp] theorem State.log_block (s : State) (e : Event) : (s.log e).block = s.block := rfl
@[simp] theorem State.log_wbuf (s : State) (e : Event) : (s.log e).wbuf = s.wbuf := rfl
@[simp] theorem State.log_seq (s : State) (e : Event) : (s.log e).seq = s.seq := rfl
@[simp] theorem State.log_faults (s : State) (e : Event) : (s.log e).faults = s.faults := rfl
@[simp] theorem State.log_refused (s : State) (e : Event) : (s.log e).refused = s.refused := rfl
@[simp] theorem State.log_events (s : State) (e : Event) : (s.log e).events = s.events ++ [e] := rfl
@[simp] theorem State.log_hostPending (s : State) (e : Event) : (s.log e).hostPending = s.hostPending := rfl
@[simp] theorem State.log_draws (s : State) (e : Event) : (s.log e).draws = s.draws := rfl
@[simp] theorem State.log_tick (s : State) (e : Event) : (s.log e).tick = s.tick := rfl
@[simp] theorem State.log_sched (s : State) (e : Event) : (s.log e).sched = s.sched := rfl

/-! ### `State.raise` -/

@[simp] theorem State.raise_par (s : State) (why : List HazardReason) (r : Reg) (v : Word) : (s.raise why r v).par = s.par := rfl
@[simp] theorem State.raise_launch (s : State) (why : List HazardReason) (r : Reg) (v : Word) : (s.raise why r v).launch = s.launch := rfl
@[simp] theorem State.raise_block (s : State) (why : List HazardReason) (r : Reg) (v : Word) : (s.raise why r v).block = s.block := rfl
@[simp] theorem State.raise_wbuf (s : State) (why : List HazardReason) (r : Reg) (v : Word) : (s.raise why r v).wbuf = s.wbuf := rfl
@[simp] theorem State.raise_seq (s : State) (why : List HazardReason) (r : Reg) (v : Word) : (s.raise why r v).seq = s.seq := rfl
@[simp] theorem State.raise_faults (s : State) (why : List HazardReason) (r : Reg) (v : Word) : (s.raise why r v).faults = why.foldl (fun fs h => addFault fs ⟨h, r, v, s.events.length⟩) s.faults := rfl
@[simp] theorem State.raise_refused (s : State) (why : List HazardReason) (r : Reg) (v : Word) : (s.raise why r v).refused = s.refused := rfl
@[simp] theorem State.raise_events (s : State) (why : List HazardReason) (r : Reg) (v : Word) : (s.raise why r v).events = s.events := rfl
@[simp] theorem State.raise_hostPending (s : State) (why : List HazardReason) (r : Reg) (v : Word) : (s.raise why r v).hostPending = s.hostPending := rfl
@[simp] theorem State.raise_draws (s : State) (why : List HazardReason) (r : Reg) (v : Word) : (s.raise why r v).draws = s.draws := rfl
@[simp] theorem State.raise_tick (s : State) (why : List HazardReason) (r : Reg) (v : Word) : (s.raise why r v).tick = s.tick := rfl
@[simp] theorem State.raise_sched (s : State) (why : List HazardReason) (r : Reg) (v : Word) : (s.raise why r v).sched = s.sched := rfl

/-! ### `State.refuse` -/

@[simp] theorem State.refuse_par (s : State) (e : RefuseReason) : (s.refuse e).par = s.par := rfl
@[simp] theorem State.refuse_launch (s : State) (e : RefuseReason) : (s.refuse e).launch = s.launch := rfl
@[simp] theorem State.refuse_block (s : State) (e : RefuseReason) : (s.refuse e).block = s.block := rfl
@[simp] theorem State.refuse_wbuf (s : State) (e : RefuseReason) : (s.refuse e).wbuf = s.wbuf := rfl
@[simp] theorem State.refuse_seq (s : State) (e : RefuseReason) : (s.refuse e).seq = s.seq := rfl
@[simp] theorem State.refuse_faults (s : State) (e : RefuseReason) : (s.refuse e).faults = s.faults := rfl
@[simp] theorem State.refuse_refused (s : State) (e : RefuseReason) : (s.refuse e).refused = some e := rfl
@[simp] theorem State.refuse_events (s : State) (e : RefuseReason) : (s.refuse e).events = s.events := rfl
@[simp] theorem State.refuse_hostPending (s : State) (e : RefuseReason) : (s.refuse e).hostPending = s.hostPending := rfl
@[simp] theorem State.refuse_draws (s : State) (e : RefuseReason) : (s.refuse e).draws = s.draws := rfl
@[simp] theorem State.refuse_tick (s : State) (e : RefuseReason) : (s.refuse e).tick = s.tick := rfl
@[simp] theorem State.refuse_sched (s : State) (e : RefuseReason) : (s.refuse e).sched = s.sched := rfl

/-! ### `State.advance` -/

@[simp] theorem State.advance_par (s : State) : (s.advance).par = s.par := rfl
@[simp] theorem State.advance_launch (s : State) : (s.advance).launch = s.launch := rfl
@[simp] theorem State.advance_block (s : State) : (s.advance).block = s.block := rfl
@[simp] theorem State.advance_wbuf (s : State) : (s.advance).wbuf = s.wbuf := rfl
@[simp] theorem State.advance_seq (s : State) : (s.advance).seq = { s.seq with pc := s.seq.pc + 1 } := rfl
@[simp] theorem State.advance_faults (s : State) : (s.advance).faults = s.faults := rfl
@[simp] theorem State.advance_refused (s : State) : (s.advance).refused = s.refused := rfl
@[simp] theorem State.advance_events (s : State) : (s.advance).events = s.events := rfl
@[simp] theorem State.advance_hostPending (s : State) : (s.advance).hostPending = s.hostPending := rfl
@[simp] theorem State.advance_draws (s : State) : (s.advance).draws = s.draws := rfl
@[simp] theorem State.advance_tick (s : State) : (s.advance).tick = s.tick := rfl
@[simp] theorem State.advance_sched (s : State) : (s.advance).sched = s.sched := rfl

/-! ### `State.withBlock` -/

@[simp] theorem State.withBlock_par (s : State) (b : Block) : (s.withBlock b).par = s.par := rfl
@[simp] theorem State.withBlock_launch (s : State) (b : Block) : (s.withBlock b).launch = s.launch := rfl
@[simp] theorem State.withBlock_block (s : State) (b : Block) : (s.withBlock b).block = b := rfl
@[simp] theorem State.withBlock_wbuf (s : State) (b : Block) : (s.withBlock b).wbuf = s.wbuf := rfl
@[simp] theorem State.withBlock_seq (s : State) (b : Block) : (s.withBlock b).seq = s.seq := rfl
@[simp] theorem State.withBlock_faults (s : State) (b : Block) : (s.withBlock b).faults = s.faults := rfl
@[simp] theorem State.withBlock_refused (s : State) (b : Block) : (s.withBlock b).refused = s.refused := rfl
@[simp] theorem State.withBlock_events (s : State) (b : Block) : (s.withBlock b).events = s.events := rfl
@[simp] theorem State.withBlock_hostPending (s : State) (b : Block) : (s.withBlock b).hostPending = s.hostPending := rfl
@[simp] theorem State.withBlock_draws (s : State) (b : Block) : (s.withBlock b).draws = s.draws := rfl
@[simp] theorem State.withBlock_tick (s : State) (b : Block) : (s.withBlock b).tick = s.tick := rfl
@[simp] theorem State.withBlock_sched (s : State) (b : Block) : (s.withBlock b).sched = s.sched := rfl

/-! ### `State.post` -/

@[simp] theorem State.post_par (s : State) (r : Reg) (v : Word) : (s.post r v).par = s.par := rfl
@[simp] theorem State.post_launch (s : State) (r : Reg) (v : Word) : (s.post r v).launch = s.launch := rfl
@[simp] theorem State.post_block (s : State) (r : Reg) (v : Word) : (s.post r v).block = s.block := rfl
@[simp] theorem State.post_wbuf (s : State) (r : Reg) (v : Word) : (s.post r v).wbuf = s.wbuf ++ [(r, v)] := rfl
@[simp] theorem State.post_seq (s : State) (r : Reg) (v : Word) : (s.post r v).seq = s.seq := rfl
@[simp] theorem State.post_faults (s : State) (r : Reg) (v : Word) : (s.post r v).faults = s.faults := rfl
@[simp] theorem State.post_refused (s : State) (r : Reg) (v : Word) : (s.post r v).refused = s.refused := rfl
@[simp] theorem State.post_events (s : State) (r : Reg) (v : Word) : (s.post r v).events = s.events := rfl
@[simp] theorem State.post_hostPending (s : State) (r : Reg) (v : Word) : (s.post r v).hostPending = s.hostPending := rfl
@[simp] theorem State.post_draws (s : State) (r : Reg) (v : Word) : (s.post r v).draws = s.draws := rfl
@[simp] theorem State.post_tick (s : State) (r : Reg) (v : Word) : (s.post r v).tick = s.tick := rfl
@[simp] theorem State.post_sched (s : State) (r : Reg) (v : Word) : (s.post r v).sched = s.sched := rfl

/-! ### `State.retireNop` -/

@[simp] theorem State.retireNop_par (s : State) : (s.retireNop).par = s.par := rfl
@[simp] theorem State.retireNop_launch (s : State) : (s.retireNop).launch = s.launch := rfl
@[simp] theorem State.retireNop_block (s : State) : (s.retireNop).block = { s.block with ddrprop := propNop s.par.resetPropNops s.block.ddrprop } := rfl
@[simp] theorem State.retireNop_wbuf (s : State) : (s.retireNop).wbuf = s.wbuf := rfl
@[simp] theorem State.retireNop_seq (s : State) : (s.retireNop).seq = { s.seq with nops := s.seq.nops + 1 } := rfl
@[simp] theorem State.retireNop_faults (s : State) : (s.retireNop).faults = s.faults := rfl
@[simp] theorem State.retireNop_refused (s : State) : (s.retireNop).refused = s.refused := rfl
@[simp] theorem State.retireNop_events (s : State) : (s.retireNop).events = s.events := rfl
@[simp] theorem State.retireNop_hostPending (s : State) : (s.retireNop).hostPending = s.hostPending := rfl
@[simp] theorem State.retireNop_draws (s : State) : (s.retireNop).draws = s.draws := rfl
@[simp] theorem State.retireNop_tick (s : State) : (s.retireNop).tick = s.tick := rfl
@[simp] theorem State.retireNop_sched (s : State) : (s.retireNop).sched = s.sched := rfl

/-! ### `State.setDelay` -/

@[simp] theorem State.setDelay_par (s : State) (c : Option Nat) : (s.setDelay c).par = s.par := rfl
@[simp] theorem State.setDelay_launch (s : State) (c : Option Nat) : (s.setDelay c).launch = s.launch := rfl
@[simp] theorem State.setDelay_block (s : State) (c : Option Nat) : (s.setDelay c).block = s.block := rfl
@[simp] theorem State.setDelay_wbuf (s : State) (c : Option Nat) : (s.setDelay c).wbuf = s.wbuf := rfl
@[simp] theorem State.setDelay_seq (s : State) (c : Option Nat) : (s.setDelay c).seq = { s.seq with delayCtr := c } := rfl
@[simp] theorem State.setDelay_faults (s : State) (c : Option Nat) : (s.setDelay c).faults = s.faults := rfl
@[simp] theorem State.setDelay_refused (s : State) (c : Option Nat) : (s.setDelay c).refused = s.refused := rfl
@[simp] theorem State.setDelay_events (s : State) (c : Option Nat) : (s.setDelay c).events = s.events := rfl
@[simp] theorem State.setDelay_hostPending (s : State) (c : Option Nat) : (s.setDelay c).hostPending = s.hostPending := rfl
@[simp] theorem State.setDelay_draws (s : State) (c : Option Nat) : (s.setDelay c).draws = s.draws := rfl
@[simp] theorem State.setDelay_tick (s : State) (c : Option Nat) : (s.setDelay c).tick = s.tick := rfl
@[simp] theorem State.setDelay_sched (s : State) (c : Option Nat) : (s.setDelay c).sched = s.sched := rfl

/-! ### `State.endTurn` -/

@[simp] theorem State.endTurn_par (s : State) : (s.endTurn).par = s.par := rfl
@[simp] theorem State.endTurn_launch (s : State) : (s.endTurn).launch = s.launch := rfl
@[simp] theorem State.endTurn_block (s : State) : (s.endTurn).block = s.block := rfl
@[simp] theorem State.endTurn_wbuf (s : State) : (s.endTurn).wbuf = s.wbuf := rfl
@[simp] theorem State.endTurn_seq (s : State) : (s.endTurn).seq = s.seq := rfl
@[simp] theorem State.endTurn_faults (s : State) : (s.endTurn).faults = s.faults := rfl
@[simp] theorem State.endTurn_refused (s : State) : (s.endTurn).refused = s.refused := rfl
@[simp] theorem State.endTurn_events (s : State) : (s.endTurn).events = s.events := rfl
@[simp] theorem State.endTurn_hostPending (s : State) : (s.endTurn).hostPending = s.hostPending := rfl
@[simp] theorem State.endTurn_draws (s : State) : (s.endTurn).draws = s.draws := rfl
@[simp] theorem State.endTurn_tick (s : State) : (s.endTurn).tick = s.tick + 1 := rfl
@[simp] theorem State.endTurn_sched (s : State) : (s.endTurn).sched = s.sched.tail := rfl

/-! ### Accessors of the block -/

@[simp] theorem Block.pll_setPll_self (b : Block) (p : PllId) (x : Pll) : (b.setPll p x).pll p = x := by
  cases p <;> rfl

theorem Block.pll_setPll_of_ne (b : Block) {p q : PllId} (x : Pll) (h : q ≠ p) : (b.setPll p x).pll q = b.pll q := by
  cases p <;> cases q <;> first | rfl | exact absurd rfl h

@[simp] theorem Block.setPll_xtalEn (b : Block) (p : PllId) (x : Pll) : (b.setPll p x).xtalEn = b.xtalEn := by cases p <;> rfl
@[simp] theorem Block.setPll_xtalRdy (b : Block) (p : PllId) (x : Pll) : (b.setPll p x).xtalRdy = b.xtalRdy := by cases p <;> rfl
@[simp] theorem Block.setPll_oeDdr (b : Block) (p : PllId) (x : Pll) : (b.setPll p x).oeDdr = b.oeDdr := by cases p <;> rfl
@[simp] theorem Block.setPll_oeEth (b : Block) (p : PllId) (x : Pll) : (b.setPll p x).oeEth = b.oeEth := by cases p <;> rfl
@[simp] theorem Block.setPll_sel (b : Block) (p : PllId) (x : Pll) : (b.setPll p x).sel = b.sel := by cases p <;> rfl
@[simp] theorem Block.setPll_rst (b : Block) (p : PllId) (x : Pll) : (b.setPll p x).rst = b.rst := by cases p <;> rfl
@[simp] theorem Block.setPll_obs (b : Block) (p : PllId) (x : Pll) : (b.setPll p x).obs = b.obs := by cases p <;> rfl
@[simp] theorem Block.setPll_ddrprop (b : Block) (p : PllId) (x : Pll) : (b.setPll p x).ddrprop = b.ddrprop := by cases p <;> rfl
@[simp] theorem Block.setOeBits_xtalEn (b : Block) (p : OePll) (x : OeBits) : (b.setOeBits p x).xtalEn = b.xtalEn := by cases p <;> rfl
@[simp] theorem Block.setOeBits_xtalRdy (b : Block) (p : OePll) (x : OeBits) : (b.setOeBits p x).xtalRdy = b.xtalRdy := by cases p <;> rfl
@[simp] theorem Block.setOeBits_core (b : Block) (p : OePll) (x : OeBits) : (b.setOeBits p x).core = b.core := by cases p <;> rfl
@[simp] theorem Block.setOeBits_ddr (b : Block) (p : OePll) (x : OeBits) : (b.setOeBits p x).ddr = b.ddr := by cases p <;> rfl
@[simp] theorem Block.setOeBits_eth (b : Block) (p : OePll) (x : OeBits) : (b.setOeBits p x).eth = b.eth := by cases p <;> rfl
@[simp] theorem Block.setOeBits_sel (b : Block) (p : OePll) (x : OeBits) : (b.setOeBits p x).sel = b.sel := by cases p <;> rfl
@[simp] theorem Block.setOeBits_rst (b : Block) (p : OePll) (x : OeBits) : (b.setOeBits p x).rst = b.rst := by cases p <;> rfl
@[simp] theorem Block.setOeBits_obs (b : Block) (p : OePll) (x : OeBits) : (b.setOeBits p x).obs = b.obs := by cases p <;> rfl
@[simp] theorem Block.setOeBits_ddrprop (b : Block) (p : OePll) (x : OeBits) : (b.setOeBits p x).ddrprop = b.ddrprop := by cases p <;> rfl

@[simp] theorem Block.oeBits_setOeBits_self (b : Block) (p : OePll) (x : OeBits) : (b.setOeBits p x).oeBits p = x := by
  cases p <;> rfl

theorem Lines.get_set (l : Lines) (x y : SubBlock) (v : Bool) : (l.set x v).get y = if y = x then v else l.get y := by
  cases x <;> cases y <;> rfl

/-- Two vectors of lines with the same lines are equal. -/
theorem Lines.ext_get {l m : Lines} (h : ∀ x, l.get x = m.get x) : l = m := by
  have h0 := h .ddrCtrl; have h1 := h .ddrAxi; have h2 := h .ddrAhb; have h3 := h .ddrPhy; have h4 := h .eth
  cases l; cases m; simp_all [Lines.get]

theorem Lines.ddrAll_iff (l : Lines) : l.ddrAll = true ↔ ∀ x ∈ ddrSet, l.get x = true := by
  cases l; simp [Lines.ddrAll, ddrSet, Lines.get]; tauto

end Sys2Proof.Machine
end

