-- ==== Sys2Proof/Laws/Ops.lean ====
section
/-! SUPPORT. One lemma per shared operation that says everything it does: faults, the bus, the no-op's count, the
reset-domain steps; what `exec` of a bus transaction is; and what a step is, agent by agent. -/

namespace Sys2Proof.Machine

/-! ### Recording faults -/

theorem mem_addFault (fs : List FaultRec) (f g : FaultRec) : g ∈ addFault fs f ↔ g ∈ fs ∨ g = f := by
  unfold addFault
  split
  · constructor
    · exact Or.inl
    · rintro (h | rfl) <;> assumption
  · simp

theorem nodup_addFault {fs : List FaultRec} (h : fs.Nodup) (f : FaultRec) : (addFault fs f).Nodup := by
  unfold addFault
  split
  · exact h
  · rename_i hf
    exact List.nodup_append.2 ⟨h, by simp, by simp only [List.mem_singleton]; rintro a ha b rfl rfl; exact hf ha⟩

theorem prefix_addFault (fs : List FaultRec) (f : FaultRec) : fs <+: addFault fs f := by
  unfold addFault
  split
  · exact List.prefix_rfl
  · exact List.prefix_append ..

/-- The records after `raise`: those before it, and one for each reason. -/
theorem mem_raise_faults (s : State) (why : List HazardReason) (r : Reg) (v : Word) (f : FaultRec) :
    f ∈ (s.raise why r v).faults ↔
      f ∈ s.faults ∨ (f.reg = r ∧ f.value = v ∧ f.index = s.events.length ∧ f.reason ∈ why) := by
  have key : ∀ (l : List FaultRec), f ∈ why.foldl (fun fs h => addFault fs ⟨h, r, v, s.events.length⟩) l ↔
      f ∈ l ∨ (f.reg = r ∧ f.value = v ∧ f.index = s.events.length ∧ f.reason ∈ why) := by
    induction why with
    | nil => simp
    | cons h hs ih =>
      intro l
      rw [List.foldl_cons, ih, mem_addFault]
      cases f
      simp only [FaultRec.mk.injEq, List.mem_cons]
      tauto
  exact key s.faults

theorem nodup_raise_faults {s : State} (h : s.faults.Nodup) (why : List HazardReason) (r : Reg) (v : Word) :
    (s.raise why r v).faults.Nodup := by
  have key : ∀ (l : List FaultRec), l.Nodup →
      (why.foldl (fun fs h => addFault fs ⟨h, r, v, s.events.length⟩) l).Nodup := by
    induction why with
    | nil => exact fun l hl => hl
    | cons h hs ih => exact fun l hl => ih _ (nodup_addFault hl _)
  exact key _ h

theorem prefix_raise_faults (s : State) (why : List HazardReason) (r : Reg) (v : Word) :
    s.faults <+: (s.raise why r v).faults := by
  have key : ∀ (l : List FaultRec), l <+: why.foldl (fun fs h => addFault fs ⟨h, r, v, s.events.length⟩) l := by
    induction why with
    | nil => exact fun l => List.prefix_rfl
    | cons h hs ih => exact fun l => (prefix_addFault l _).trans (ih _)
  exact key _

@[simp] theorem raise_nil (s : State) (r : Reg) (v : Word) : s.raise [] r v = s := rfl

/-! ### The bus -/

/-- A performed read, field by field: the word, and the state with the READ event, one draw used, and the fault of a
reserved word. -/
theorem busRead_eq (r : Reg) (s : State) :
    let w := readWord r s.block (Config.freeWord s.draws)
    busRead r s = (w, { s with
      faults := (s.raise (readHazards r) r w).faults, events := s.events ++ [.read r w], draws := s.draws + 1 }) := rfl

/-- A performed write, field by field. -/
theorem performWrite_eq (r : Reg) (v : Word) (s : State) :
    performWrite r v s = { s with
      block := writeBlock r s.block v
      faults := (s.raise (writeHazards r s.par s.block v) r v).faults
      events := s.events ++ [.write r v] } := rfl

/-- A read transaction is the read of its word. -/
theorem exec_ofRead (r : Reg) (s : State) : exec (Instr.ofRead r) s = .next (readTxn r s) := by cases r <;> rfl

/-- A write transaction is the performed write of its word. -/
theorem exec_ofWrite (r : Reg) (v : Word) (s : State) : exec (Instr.ofWrite r v) s = .next (performWrite r v s) := by
  cases r <;> rfl

/-- A bus transaction is the read or the write of some word. -/
theorem eq_ofRead_or_ofWrite {i : Instr} (h : i.isSeq = false) : (∃ r, i = Instr.ofRead r) ∨ ∃ r v, i = Instr.ofWrite r v := by
  cases i
  case rdCrystal => exact .inl ⟨.crystal, rfl⟩
  case rdCorepll => exact .inl ⟨.corepll, rfl⟩
  case rdRsvd08 => exact .inl ⟨.rsvd08, rfl⟩
  case rdDdrpll0 => exact .inl ⟨.ddrpll0, rfl⟩
  case rdDdrpll1 => exact .inl ⟨.ddrpll1, rfl⟩
  case rdRsvd14 => exact .inl ⟨.rsvd14, rfl⟩
  case rdRsvd18 => exact .inl ⟨.rsvd18, rfl⟩
  case rdEthpll0 => exact .inl ⟨.ethpll0, rfl⟩
  case rdEthpll1 => exact .inl ⟨.ethpll1, rfl⟩
  case rdClksel => exact .inl ⟨.clksel, rfl⟩
  case rdRstctl => exact .inl ⟨.rstctl, rfl⟩
  case wrCrystal v => exact .inr ⟨.crystal, v, rfl⟩
  case wrCorepll v => exact .inr ⟨.corepll, v, rfl⟩
  case wrRsvd08 v => exact .inr ⟨.rsvd08, v, rfl⟩
  case wrDdrpll0 v => exact .inr ⟨.ddrpll0, v, rfl⟩
  case wrDdrpll1 v => exact .inr ⟨.ddrpll1, v, rfl⟩
  case wrRsvd14 v => exact .inr ⟨.rsvd14, v, rfl⟩
  case wrRsvd18 v => exact .inr ⟨.rsvd18, v, rfl⟩
  case wrEthpll0 v => exact .inr ⟨.ethpll0, v, rfl⟩
  case wrEthpll1 v => exact .inr ⟨.ethpll1, v, rfl⟩
  case wrClksel v => exact .inr ⟨.clksel, v, rfl⟩
  case wrRstctl v => exact .inr ⟨.rstctl, v, rfl⟩
  all_goals exact Bool.noConfusion h

theorem readTxn_of_empty {s : State} (h : s.wbuf = []) (r : Reg) : readTxn r s = (busRead r s).2 := by
  simp [readTxn, h]

theorem readTxn_of_pending {s : State} (h : s.wbuf ≠ []) (r : Reg) : readTxn r s = s := by
  simp [readTxn, h]

theorem wbufFull_iff (s : State) : wbufFull s = true ↔ s.par.wbufDepth ≤ s.wbuf.length := by simp [wbufFull]

theorem wbufFull_eq_false_iff (s : State) : wbufFull s = false ↔ s.wbuf.length < s.par.wbufDepth := by
  simp [wbufFull]

/-- A buffer with nothing pending has room (R6, R52). -/
theorem wbufFull_of_empty {s : State} (h : s.wbuf = []) : wbufFull s = false := by
  rw [wbufFull_eq_false_iff, h]
  exact s.par.wbufDepth_pos

/-! ### Clocks -/

/-- A PLL's output is stable exactly if it does not glitch (R96). -/
theorem stable_iff_output (P : Pll) : P.stable = true ↔ P.output ≠ .glitching := by
  cases hb : P.bypass <;> cases hl : P.lock <;> simp [Pll.stable, Pll.output, hb, hl]

/-- In bypass the output is the reference clock and the lock detector has no step (R93). -/
theorem bypass_passes_reference {b : Block} {p : PllId} (h : (b.pll p).bypass = true) :
    (b.pll p).output = .reference ∧ pllEnabled p b = false := by
  simp [Pll.output, pllEnabled, h]

/-- The core clock is stable exactly if it runs from a ready crystal or from a PLL that does not glitch (R23). -/
theorem coreClockStable_iff (b : Block) :
    coreClockStable b = true ↔
      (coreClock b = .crystal ∧ b.xtalRdy = true) ∨ ∃ o, o ≠ .glitching ∧ coreClock b = .pll o := by
  cases hs : b.sel <;> simp [coreClockStable, coreClock, coreSrc, hs, stable_iff_output]

/-- `all_observed` as R121 says it. -/
theorem allObserved_iff (b : Block) : allObserved b = true ↔ ∀ x, b.obs.get x = b.rst.get x := by
  constructor
  · intro h x
    rw [eq_of_beq h]
  · intro h
    exact beq_iff_eq.2 (Lines.ext_get h)

/-! ### Bits -/

theorem getLsbD_bitAt (b : Bool) {k : Nat} (hk : k < 32) (j : Nat) :
    (bitAt b k).getLsbD j = (b && decide (j = k)) := by
  unfold bitAt
  cases b
  · simp
  · simp only [if_true, BitVec.getLsbD_shiftLeft, Bool.true_and]
    by_cases h : j = k
    · subst h; simp [hk]
    · by_cases h2 : j < k
      · simp [h2, h]
      · simp [h]; omega

/-- Each bit of a merged word: from `v` inside the mask, from `w` outside it (R137). -/
theorem getLsbD_merge (w m v : Word) {k : Nat} (hk : k < 32) :
    (merge w m v).getLsbD k = if m.getLsbD k = true then v.getLsbD k else w.getLsbD k := by
  unfold merge
  rw [BitVec.getLsbD_or, BitVec.getLsbD_and, BitVec.getLsbD_and, BitVec.getLsbD_not]
  cases m.getLsbD k <;> simp [hk]

/-! ### Propagation -/

theorem propNop_propagating (bound n : Nat) :
    propNop bound (.propagating n) = if bound ≤ n + 1 then .done else .propagating (n + 1) := rfl

@[simp] theorem propNop_idle (bound : Nat) : propNop bound .idle = .idle := rfl

@[simp] theorem propNop_done (bound : Nat) : propNop bound .done = .done := rfl

/-! ### Fairness -/

/-- Fairness to HOST covers the return of a pending write: while one is pending HOST has no other step (R12, R152). -/
theorem hostReturn_of_fair {ex : Nat → State} (fair : fairTo .host ex) {n : Nat}
    (due : ∀ m, n ≤ m → enabled .hostReturn (ex m) = true) : ∃ m, n ≤ m ∧ turnOf (ex m) = .hostReturn := by
  obtain ⟨m, hm, ha, he⟩ := fair n fun m hm => ⟨.hostReturn, rfl, due m hm⟩
  refine ⟨m, hm, ?_⟩
  have pending := due m hm
  cases ht : turnOf (ex m) with
  | hostReturn => rfl
  | host op =>
    rw [ht] at he
    simp_all [enabled, hostEnabled]
  | seq | bus | port h d | pll p | xtal | rstobs b | ddrprop =>
    rw [ht] at ha
    cases ha

/-! ### A step, agent by agent -/

/-- A step is the move of the agent whose turn it is. -/
theorem step_eq (s : State) : step s = agentStep (turnOf s) s.endTurn := rfl

/-- Everything SEQ's turn can be: no step, a refusal, or one operation executed. -/
theorem seqStep_cases (s : State) :
    (seqEnabled s = false ∧ seqStep s = .next s) ∨
    (seqEnabled s = true ∧ fetch s = none ∧ seqStep s = .next (s.refuse .pcOutOfRange)) ∨
    (∃ q e, seqEnabled s = true ∧ fetch s = some q ∧ decodeSeq q = .error e ∧ seqStep s = .next (s.refuse e)) ∨
    (∃ q i, seqEnabled s = true ∧ fetch s = some q ∧ decodeSeq q = .ok i ∧ seqStep s = exec i s) := by
  unfold seqStep
  cases he : seqEnabled s
  · simp
  · cases hf : fetch s with
    | none => simp
    | some q =>
      cases hd : decodeSeq q with
      | error e => exact .inr (.inr (.inl ⟨q, e, by simp [hd]⟩))
      | ok i => exact .inr (.inr (.inr ⟨q, i, by simp [hd]⟩))

/-- Everything a turn of the port can be: no effect, a refusal, or one transaction executed. -/
theorem portStep_cases (h : BitVec 16) (d : Word) (s : State) :
    (s.seq.status = .running ∧ portStep h d s = .next s) ∨
    (∃ e, s.seq.status ≠ .running ∧ decodeBus h d = .error e ∧ portStep h d s = .next (s.refuse e)) ∨
    (∃ i, s.seq.status ≠ .running ∧ decodeBus h d = .ok i ∧ portStep h d s = exec i s) := by
  unfold portStep
  by_cases hs : s.seq.status = .running
  · simp [hs]
  · cases hd : decodeBus h d with
    | error e => exact .inr (.inl ⟨e, hs, rfl, by simp [hs]⟩)
    | ok i => exact .inr (.inr ⟨i, hs, rfl, by simp [hs]⟩)

end Sys2Proof.Machine
end

