-- ==== Sys2Proof/Laws/PerInstr.lean ====
section
/-! SUPPORT. A property of every instruction as syntax, constructor by constructor: the shape of its encoding
(30_encoding.md R71 to R76). -/

namespace Sys2Proof.Laws

namespace EncodedForm

/-- The header and data word of a bus transaction: Z is 000, BE is 1111, the offset names a word, and a read carries no
data (R71, R72). -/
def BusForm (h : BitVec 16) (d : Word) : Prop :=
  h.toNat / 4096 % 8 = 0 ∧ h.toNat / 256 % 16 = 15 ∧ h.toNat % 4 = 0 ∧ h.toNat % 256 < 0x2C ∧
  (h.toNat < 2 ^ 15 → d = 0)

/-- The words of a sequencer operation: a code of the map, an offset that names a word or is zero, and zero in every
field that the code does not use (R73, R74, R76). -/
def SeqForm (q : SeqWords) : Prop :=
  let opc := q.w0.toNat / 2 ^ 24
  let off := q.w0.toNat / 2 ^ 16 % 256
  (1 ≤ opc ∧ opc ≤ 0x0A) ∧ off % 4 = 0 ∧ off < 0x2C ∧ (4 < opc → off = 0) ∧
  (opc ≠ 7 → q.w0.toNat % 2 ^ 16 = 0) ∧ (opc ≠ 3 ∧ opc ≠ 4 → q.w1 = 0) ∧
  (opc ≠ 2 ∧ opc ≠ 3 ∧ opc ≠ 4 ∧ opc ≠ 8 → q.w2 = 0)

/-- A well-formed instruction is encoded in its own format, in a form that R72 and R76 admit. -/
def Statement (i : Instr) : Prop :=
  i.wf = true →
    match encode i with
    | .bus16 h d => i.isSeq = false ∧ BusForm h d
    | .seq96 q => i.isSeq = true ∧ SeqForm q

theorem busForm_read (r : Reg) : BusForm (busHeader false r) 0 := by
  cases r <;> (unfold BusForm; decide)

theorem busForm_write (r : Reg) (v : Word) : BusForm (busHeader true r) v := by
  have h : (busHeader true r).toNat / 4096 % 8 = 0 ∧ (busHeader true r).toNat / 256 % 16 = 15 ∧
      (busHeader true r).toNat % 4 = 0 ∧ (busHeader true r).toNat % 256 < 0x2C ∧
      ¬ (busHeader true r).toNat < 2 ^ 15 := by
    cases r <;> decide
  exact ⟨h.1, h.2.1, h.2.2.1, h.2.2.2.1, fun hlt => absurd hlt h.2.2.2.2⟩

/-- W0 as a number (R73). -/
theorem seqW0_toNat (opc off : BitVec 8) (aux : BitVec 16) :
    (seqW0 opc off aux).toNat = opc.toNat * 2 ^ 24 + off.toNat * 2 ^ 16 + aux.toNat := by
  have h1 := opc.isLt
  have h2 := off.isLt
  have h3 := aux.isLt
  unfold seqW0
  rw [BitVec.toNat_append, BitVec.toNat_append, ← Nat.shiftLeft_add_eq_or_of_lt (by omega),
    ← Nat.shiftLeft_add_eq_or_of_lt (by omega)]
  simp only [Nat.shiftLeft_eq]
  omega

theorem off_aligned (r : Reg) : r.off.toNat % 4 = 0 ∧ r.off.toNat < 0x2C := by cases r <;> decide

/-- The words of a register operation: codes 1 to 4, with what their rows leave unused zero. -/
theorem seqForm_reg (opc : BitVec 8) (r : Reg) (m v : Word) (h1 : 1 ≤ opc.toNat) (h4 : opc.toNat ≤ 4)
    (hm : opc.toNat ≠ 3 ∧ opc.toNat ≠ 4 → m = 0) (hv : opc.toNat = 1 → v = 0) :
    SeqForm ⟨seqW0 opc r.off 0, m, v⟩ := by
  have ho := off_aligned r
  have h0 : (0 : BitVec 16).toNat = 0 := rfl
  have e1 : (seqW0 opc r.off 0).toNat / 2 ^ 24 = opc.toNat := by rw [seqW0_toNat]; omega
  have e2 : (seqW0 opc r.off 0).toNat / 2 ^ 16 % 256 = r.off.toNat := by rw [seqW0_toNat]; omega
  have e3 : (seqW0 opc r.off 0).toNat % 2 ^ 16 = 0 := by rw [seqW0_toNat]; omega
  simp only [SeqForm, e1, e2, e3]
  exact ⟨by omega, ho.1, ho.2, fun h => by omega, fun _ => trivial, hm, fun h => hv (by omega)⟩

/-- The words of an operation without a register: codes 5 to 10. -/
theorem seqForm_plain (opc : BitVec 8) (aux : BitVec 16) (v : Word) (h1 : 5 ≤ opc.toNat) (h4 : opc.toNat ≤ 0x0A)
    (ha : opc.toNat ≠ 7 → aux.toNat = 0) (hv : opc.toNat ≠ 8 → v = 0) :
    SeqForm ⟨seqW0 opc 0 aux, 0, v⟩ := by
  have h0 : (0 : BitVec 8).toNat = 0 := rfl
  have hx := aux.isLt
  have e1 : (seqW0 opc 0 aux).toNat / 2 ^ 24 = opc.toNat := by rw [seqW0_toNat]; omega
  have e2 : (seqW0 opc 0 aux).toNat / 2 ^ 16 % 256 = 0 := by rw [seqW0_toNat]; omega
  have e3 : (seqW0 opc 0 aux).toNat % 2 ^ 16 = aux.toNat := by rw [seqW0_toNat]; omega
  simp only [SeqForm, e1, e2, e3]
  exact ⟨by omega, by decide, by decide, fun _ => trivial, ha, fun _ => trivial, fun h => hv (by omega)⟩

theorem rdCrystal : Statement .rdCrystal := fun _ => ⟨rfl, busForm_read .crystal⟩
theorem wrCrystal (v : Word) : Statement (.wrCrystal v) := fun _ => ⟨rfl, busForm_write .crystal v⟩
theorem rdCorepll : Statement .rdCorepll := fun _ => ⟨rfl, busForm_read .corepll⟩
theorem wrCorepll (v : Word) : Statement (.wrCorepll v) := fun _ => ⟨rfl, busForm_write .corepll v⟩
theorem rdRsvd08 : Statement .rdRsvd08 := fun _ => ⟨rfl, busForm_read .rsvd08⟩
theorem wrRsvd08 (v : Word) : Statement (.wrRsvd08 v) := fun _ => ⟨rfl, busForm_write .rsvd08 v⟩
theorem rdDdrpll0 : Statement .rdDdrpll0 := fun _ => ⟨rfl, busForm_read .ddrpll0⟩
theorem wrDdrpll0 (v : Word) : Statement (.wrDdrpll0 v) := fun _ => ⟨rfl, busForm_write .ddrpll0 v⟩
theorem rdDdrpll1 : Statement .rdDdrpll1 := fun _ => ⟨rfl, busForm_read .ddrpll1⟩
theorem wrDdrpll1 (v : Word) : Statement (.wrDdrpll1 v) := fun _ => ⟨rfl, busForm_write .ddrpll1 v⟩
theorem rdRsvd14 : Statement .rdRsvd14 := fun _ => ⟨rfl, busForm_read .rsvd14⟩
theorem wrRsvd14 (v : Word) : Statement (.wrRsvd14 v) := fun _ => ⟨rfl, busForm_write .rsvd14 v⟩
theorem rdRsvd18 : Statement .rdRsvd18 := fun _ => ⟨rfl, busForm_read .rsvd18⟩
theorem wrRsvd18 (v : Word) : Statement (.wrRsvd18 v) := fun _ => ⟨rfl, busForm_write .rsvd18 v⟩
theorem rdEthpll0 : Statement .rdEthpll0 := fun _ => ⟨rfl, busForm_read .ethpll0⟩
theorem wrEthpll0 (v : Word) : Statement (.wrEthpll0 v) := fun _ => ⟨rfl, busForm_write .ethpll0 v⟩
theorem rdEthpll1 : Statement .rdEthpll1 := fun _ => ⟨rfl, busForm_read .ethpll1⟩
theorem wrEthpll1 (v : Word) : Statement (.wrEthpll1 v) := fun _ => ⟨rfl, busForm_write .ethpll1 v⟩
theorem rdClksel : Statement .rdClksel := fun _ => ⟨rfl, busForm_read .clksel⟩
theorem wrClksel (v : Word) : Statement (.wrClksel v) := fun _ => ⟨rfl, busForm_write .clksel v⟩
theorem rdRstctl : Statement .rdRstctl := fun _ => ⟨rfl, busForm_read .rstctl⟩
theorem wrRstctl (v : Word) : Statement (.wrRstctl v) := fun _ => ⟨rfl, busForm_write .rstctl v⟩
theorem rd (r : Reg) : Statement (.rd r) := fun _ =>
  ⟨rfl, seqForm_reg 0x01#8 r 0 0 (by decide) (by decide) (fun _ => rfl) (fun _ => rfl)⟩
theorem wr (r : Reg) (v : Word) : Statement (.wr r v) := fun _ =>
  ⟨rfl, seqForm_reg 0x02#8 r 0 v (by decide) (by decide) (fun _ => rfl) (fun h => absurd h (by decide))⟩
theorem modify (r : Reg) (m v : Word) : Statement (.modify r m v) := fun _ =>
  ⟨rfl, seqForm_reg 0x03#8 r m v (by decide) (by decide) (fun h => absurd rfl h.1) (fun h => absurd h (by decide))⟩
theorem poll (r : Reg) (m v : Word) : Statement (.poll r m v) := fun _ =>
  ⟨rfl, seqForm_reg 0x04#8 r m v (by decide) (by decide) (fun h => absurd rfl h.2) (fun h => absurd h (by decide))⟩
theorem fence : Statement .fence := fun _ =>
  ⟨rfl, seqForm_plain 0x05#8 0 0 (by decide) (by decide) (fun _ => rfl) (fun _ => rfl)⟩
theorem nop : Statement .nop := fun _ =>
  ⟨rfl, seqForm_plain 0x06#8 0 0 (by decide) (by decide) (fun _ => rfl) (fun _ => rfl)⟩
theorem delay (n : Nat) : Statement (.delay n) := fun _ =>
  ⟨rfl, seqForm_plain 0x07#8 (BitVec.ofNat 16 n) 0 (by decide) (by decide) (fun h => absurd rfl h) (fun _ => rfl)⟩
theorem notify (rate : Word) : Statement (.notify rate) := fun _ =>
  ⟨rfl, seqForm_plain 0x08#8 0 rate (by decide) (by decide) (fun _ => rfl) (fun h => absurd rfl h)⟩
theorem exitIfEmu : Statement .exitIfEmu := fun _ =>
  ⟨rfl, seqForm_plain 0x09#8 0 0 (by decide) (by decide) (fun _ => rfl) (fun _ => rfl)⟩
theorem ret : Statement .ret := fun _ =>
  ⟨rfl, seqForm_plain 0x0A#8 0 0 (by decide) (by decide) (fun _ => rfl) (fun _ => rfl)⟩

end EncodedForm

end Sys2Proof.Laws
end

