-- ==== Sys2Proof/Laws/Step.lean ====
section
/-! SUPPORT. Everything an instruction, and a step, can do, said once: the cases that a proof about all instructions or all
steps goes through, instead of unfolding `exec` or `step`. -/

namespace Sys2Proof.Machine

/-- Everything `exec` can do with an instruction. `hold` is a wait with no effect. -/
inductive ExecTo (s : State) : Instr → State → Prop
  | hold (i : Instr) : ExecTo s i s
  | read (i : Instr) (r : Reg) (pc : Nat) (empty : s.wbuf = []) (hpc : pc = s.seq.pc ∨ pc = s.seq.pc + 1)
      (hi : i = .rd r ∨ (∃ m v, i = .poll r m v) ∨ i = Instr.ofRead r) :
      ExecTo s i { (busRead r s).2 with seq := { s.seq with pc := pc } }
  | modify (r : Reg) (m v x : Word) (empty : s.wbuf = []) :
      ExecTo s (.modify r m v)
        { (busRead r s).2 with wbuf := [(r, x)], seq := { s.seq with pc := s.seq.pc + 1 } }
  | write (r : Reg) (v : Word) : ExecTo s (Instr.ofWrite r v) (performWrite r v s)
  | post (r : Reg) (v : Word) (room : s.wbuf.length < s.par.wbufDepth) :
      ExecTo s (.wr r v) { s with wbuf := s.wbuf ++ [(r, v)], seq := { s.seq with pc := s.seq.pc + 1 } }
  | fence (empty : s.wbuf = []) (observed : allObserved s.block = true) : ExecTo s .fence (s.log .fence).advance
  | nop : ExecTo s .nop s.retireNop.advance
  | delayNone (n : Nat) (count : s.seq.delayCtr.getD n = 0) : ExecTo s (.delay n) (s.setDelay none).advance
  | delayLast (n : Nat) (count : s.seq.delayCtr.getD n = 1) :
      ExecTo s (.delay n) (s.retireNop.setDelay none).advance
  | delayMore (n c : Nat) (count : s.seq.delayCtr.getD n = c + 2) :
      ExecTo s (.delay n) (s.retireNop.setDelay (some (c + 1)))
  | notify (rate : Word) :
      ExecTo s (.notify rate)
        ({ s with events := s.events ++ s.launch.consumers.map (Event.notify · rate) } : State).advance
  | exitIfEmu (pc : Nat) (hpc : pc = s.launch.program.length - 1 ∨ pc = s.seq.pc + 1) :
      ExecTo s .exitIfEmu { s.log (.envQuery s.launch.emulated) with seq := { s.seq with pc := pc } }
  | ret : ExecTo s .ret { s.log .ret with seq := { s.seq with status := .done } }

/-- Every instruction answers a next state, which is one of the cases. -/
theorem exec_to (i : Instr) (s : State) : ∃ t, exec i s = .next t ∧ ExecTo s i t := by
  cases hi : i.isSeq
  · rcases eq_ofRead_or_ofWrite hi with ⟨r, rfl⟩ | ⟨r, v, rfl⟩
    · rw [exec_ofRead]
      by_cases h : s.wbuf = []
      · rw [readTxn_of_empty h]
        exact ⟨_, rfl, .read _ r s.seq.pc h (.inl rfl) (.inr (.inr rfl))⟩
      · rw [readTxn_of_pending h]
        exact ⟨_, rfl, .hold _⟩
    · exact ⟨_, exec_ofWrite .., .write r v⟩
  · cases i <;> try exact Bool.noConfusion hi
    case rd r =>
      simp only [exec, execRd]
      split
      · rename_i h
        exact ⟨_, rfl, .read _ r _ h (.inr rfl) (.inl rfl)⟩
      · exact ⟨_, rfl, .hold _⟩
    case wr r v =>
      simp only [exec, execWr]
      split
      · exact ⟨_, rfl, .hold _⟩
      · rename_i h
        exact ⟨_, rfl, .post r v ((wbufFull_eq_false_iff s).1 (by simpa using h))⟩
    case modify r m v =>
      simp only [exec, execModify]
      split
      · rename_i h
        refine ⟨_, rfl, ?_⟩
        have := ExecTo.modify (s := s) r m v (merge (busRead r s).1 m v) h.1
        convert this using 1
        simp [State.post, State.advance, busRead_eq, h.1]
      · exact ⟨_, rfl, .hold _⟩
    case poll r m v =>
      simp only [exec, execPoll]
      split
      · rename_i h
        split
        · exact ⟨_, rfl, .read _ r _ h (.inr rfl) (.inr (.inl ⟨_, _, rfl⟩))⟩
        · exact ⟨_, rfl, .read _ r s.seq.pc h (.inl rfl) (.inr (.inl ⟨_, _, rfl⟩))⟩
      · exact ⟨_, rfl, .hold _⟩
    case fence =>
      simp only [exec, execFence]
      split
      · rename_i h
        exact ⟨_, rfl, .fence h.1 h.2⟩
      · exact ⟨_, rfl, .hold _⟩
    case nop => exact ⟨_, rfl, .nop⟩
    case delay n =>
      simp only [exec, execDelay]
      match h : s.seq.delayCtr.getD n with
      | 0 => exact ⟨_, rfl, .delayNone n h⟩
      | 1 => exact ⟨_, rfl, .delayLast n h⟩
      | c + 2 => exact ⟨_, rfl, .delayMore n c h⟩
    case notify rate => exact ⟨_, rfl, .notify rate⟩
    case exitIfEmu =>
      refine ⟨_, rfl, .exitIfEmu _ ?_⟩
      split <;> simp
    case ret => exact ⟨_, rfl, .ret⟩

/-- What a header decodes to is the read or the write of some word. -/
theorem decodeBus_isSeq {h : BitVec 16} {d : Word} {i : Instr} (hd : decodeBus h d = .ok i) : i.isSeq = false := by
  unfold decodeBus at hd
  split at hd
  · cases hd
  · split at hd
    · cases hd
    · split at hd
      · cases hd
      · rename_i r _
        cases hd
        split <;> cases r <;> rfl

/-- Everything the agent of a turn can do. `hold` is a turn in which it has no step. -/
inductive StepTo (s : State) : Turn → State → Prop
  | hold (t : Turn) : StepTo s t s
  | seqRefuse (e : RefuseReason) (running : s.seq.status = .running) (clear : s.refused = none)
      (bad : fetch s = none ∨ ∃ q, fetch s = some q ∧ decodeSeq q = .error e) : StepTo s .seq (s.refuse e)
  | seqExec (q : SeqWords) (i : Instr) (t : State) (running : s.seq.status = .running) (clear : s.refused = none)
      (hf : fetch s = some q) (hd : decodeSeq q = .ok i) (hx : ExecTo s i t) : StepTo s .seq t
  | bus (r : Reg) (v : Word) (rest : List (Reg × Word)) (hw : s.wbuf = (r, v) :: rest) :
      StepTo s .bus (performWrite r v { s with wbuf := rest })
  | portRefuse (h : BitVec 16) (d : Word) (e : RefuseReason) : StepTo s (.port h d) (s.refuse e)
  | portExec (h : BitVec 16) (d : Word) (i : Instr) (t : State) (idle : s.seq.status ≠ .running)
      (hi : i.isSeq = false) (hx : ExecTo s i t) : StepTo s (.port h d) t
  | pll (p : PllId) (active : (s.block.pll p).bypass = false) (ready : s.block.xtalRdy = true) :
      StepTo s (.pll p) (s.withBlock (s.block.setPll p { s.block.pll p with lock := true }))
  | xtal (en : s.block.xtalEn = true) : StepTo s .xtal (s.withBlock { s.block with xtalRdy := true })
  | rstobs (x : SubBlock) (released : s.block.rst.get x = true) (unseen : s.block.obs.get x = false) :
      StepTo s (.rstobs x) (s.withBlock (observe s.par.resetPropNops s.block x))
  | ddrprop (n : Nat) (h : s.block.ddrprop = .propagating n) :
      StepTo s .ddrprop (s.withBlock { s.block with ddrprop := .done })
  | hostLog (op : HostOp) (res : HostResult) (idle : s.seq.status ≠ .running) :
      StepTo s (.host op) (s.log (.host op res))
  | hostStart (idle : s.seq.status ≠ .running) (first : s.seq.ranOnce = false) :
      StepTo s (.host (.write onPayload))
        { s with seq := { s.seq with ranOnce := true, pc := 0, status := .running }, hostPending := true }
  | hostRefuse (again : s.seq.ranOnce = true) : StepTo s (.host (.write onPayload)) (s.refuse .reinit)
  | hostReturn (ended : runOver s = true) :
      StepTo s .hostReturn { s.log (.host (.write onPayload) (.ok 1)) with hostPending := false }

/-- Every agent's turn answers a next state, which is one of the cases. -/
theorem agent_to (t : Turn) (s : State) : ∃ u, agentStep t s = .next u ∧ StepTo s t u := by
  cases t with
  | seq =>
    change ∃ u, seqStep s = _ ∧ _
    rcases seqStep_cases s with ⟨_, e⟩ | ⟨h, hf, e⟩ | ⟨q, _, h, hf, hd, e⟩ | ⟨q, i, h, hf, hd, e⟩
    · exact ⟨_, e, .hold _⟩
    · simp [seqEnabled] at h
      exact ⟨_, e, .seqRefuse _ h.1 h.2 (.inl hf)⟩
    · simp [seqEnabled] at h
      exact ⟨_, e, .seqRefuse _ h.1 h.2 (.inr ⟨q, hf, hd⟩)⟩
    · simp [seqEnabled] at h
      obtain ⟨u, h1, h2⟩ := exec_to i s
      exact ⟨u, e.trans h1, .seqExec q i u h.1 h.2 hf hd h2⟩
  | bus =>
    change ∃ u, busStep s = _ ∧ _
    unfold busStep
    split
    · exact ⟨_, rfl, .hold _⟩
    · rename_i r v rest h
      exact ⟨_, exec_ofWrite .., .bus r v rest h⟩
  | port h d =>
    change ∃ u, portStep h d s = _ ∧ _
    rcases portStep_cases h d s with ⟨_, e⟩ | ⟨_, _, _, e⟩ | ⟨i, h, hd, e⟩
    · exact ⟨_, e, .hold _⟩
    · exact ⟨_, e, .portRefuse ..⟩
    · obtain ⟨u, h1, h2⟩ := exec_to i s
      exact ⟨u, e.trans h1, .portExec _ _ i u h (decodeBus_isSeq hd) h2⟩
  | pll p =>
    refine ⟨_, rfl, ?_⟩
    unfold pllStep
    split
    · rename_i h
      simp [pllEnabled] at h
      exact .pll p h.1.1.2 h.1.2
    · exact .hold _
  | xtal =>
    refine ⟨_, rfl, ?_⟩
    unfold xtalStep
    split
    · rename_i h
      simp [xtalEnabled] at h
      exact .xtal h.1
    · exact .hold _
  | rstobs x =>
    refine ⟨_, rfl, ?_⟩
    unfold rstobsStep
    split
    · rename_i h
      simp [rstobsEnabled] at h
      exact .rstobs x h.1 h.2
    · exact .hold _
  | ddrprop =>
    refine ⟨_, rfl, ?_⟩
    unfold ddrpropStep
    split
    · rename_i h
      unfold ddrpropEnabled at h
      split at h
      · rename_i n hn
        exact .ddrprop n hn
      · cases h
      · cases h
    · exact .hold _
  | host op =>
    refine ⟨_, rfl, ?_⟩
    unfold hostStep
    split
    · rename_i h
      simp [hostEnabled] at h
      cases op with
      | init => exact .hostLog _ _ h.1
      | read => exact .hostLog _ _ h.1
      | shutdown => exact .hostLog _ _ h.1
      | write p =>
        simp only
        split
        · rename_i hp
          subst hp
          split
          · rename_i h2
            exact .hostRefuse h2
          · rename_i h2
            exact .hostStart h.1 (by simpa using h2)
        · exact .hostLog _ _ h.1
    · exact .hold _
  | hostReturn =>
    refine ⟨_, rfl, ?_⟩
    unfold hostReturnStep
    split
    · rename_i h
      simp at h
      exact .hostReturn h.2
    · exact .hold _

/-- What a step did is one of the cases, from the state with the turn used up. -/
theorem step_to {s t : State} (h : step s = .next t) : StepTo s.endTurn (turnOf s) t := by
  obtain ⟨u, h1, h2⟩ := agent_to (turnOf s) s.endTurn
  rw [step_eq, h1] at h
  cases h
  exact h2

end Sys2Proof.Machine
end

