-- ==== Sys2Proof/Tests/Slice0.lean ====
section
/-! SUPPORT. Tests: what WellFormed and the decoders refuse, a decoded word for every instruction, one step of each
instruction and agent on small states, and for each statement with hypotheses a witness that meets them. Expected results
come from the spec: the vectors E-, RA-, PLL-, MX-, RC-, FD-, SQ- and H- of 95_test_vectors.md and the encoding tables of
30_encoding.md. -/

namespace Sys2Proof.Tests

open Sys2Proof.Machine

/-! ### Well-formedness: an ill-formed term for each check -/

/-- R75: the largest count. -/
theorem test_wf_delay_max : Instr.wf (.delay 65535) = true := by decide

/-- R75: one more does not fit AUX. -/
theorem test_wf_delay_too_large : Instr.wf (.delay 65536) = false := by decide

theorem test_wf_isSeq : Instr.isSeq (.rd .clksel) = true ∧ Instr.isSeq .rdClksel = false := by decide

/-- A bus transaction is no operation of a program. -/
theorem test_wf_program_bus : programWf [.wrClksel 1#32, .ret] = false := by decide

/-- R134: the last operation is RET. -/
theorem test_wf_program_no_ret : programWf [.nop] = false := by decide

/-- R134: no other RET precedes it. -/
theorem test_wf_program_early_ret : programWf [.ret, .nop, .ret] = false := by decide

theorem test_wf_program_empty : programWf [] = false := by decide

theorem test_wf_program_good : programWf [.nop, .delay 1, .ret] = true := by decide

/-! ### Decoding: a word for every row, written out from R71 and R73 -/

/-- R71: reads, `H = 0x0F00 | off`. -/
theorem test_decode_bus_reads :
    [0x0F00#16, 0x0F04#16, 0x0F08#16, 0x0F0C#16, 0x0F10#16, 0x0F14#16, 0x0F18#16, 0x0F1C#16, 0x0F20#16, 0x0F24#16,
      0x0F28#16].map (fun h => (decodeBus h 0#32).toOption) =
    [.rdCrystal, .rdCorepll, .rdRsvd08, .rdDdrpll0, .rdDdrpll1, .rdRsvd14, .rdRsvd18, .rdEthpll0, .rdEthpll1, .rdClksel,
      .rdRstctl].map some := by decide

/-- R71: writes, `H = 0x8F00 | off`, here with D = 0x12345678. -/
theorem test_decode_bus_writes :
    [0x8F00#16, 0x8F04#16, 0x8F08#16, 0x8F0C#16, 0x8F10#16, 0x8F14#16, 0x8F18#16, 0x8F1C#16, 0x8F20#16, 0x8F24#16,
      0x8F28#16].map (fun h => (decodeBus h 0x12345678#32).toOption) =
    ([.wrCrystal, .wrCorepll, .wrRsvd08, .wrDdrpll0, .wrDdrpll1, .wrRsvd14, .wrRsvd18, .wrEthpll0, .wrEthpll1,
      .wrClksel, .wrRstctl] : List (Word → Instr)).map (fun k => some (k 0x12345678#32)) := by decide

/-- E-2. -/
theorem test_decode_E2 : decodeBus 0x8F28#16 0x0000002F#32 = .ok (.wrRstctl 0x2F#32) := by decide

/-- E-3 to E-8: the checks of R72 in their order. -/
theorem test_decode_E3_E8 :
    decodeBus 0x1F00#16 0#32 = .error .badDescriptor ∧ decodeBus 0x0300#16 0#32 = .error .badWidth ∧
    decodeBus 0x0F02#16 0#32 = .error .misaligned ∧ decodeBus 0x0F2C#16 0#32 = .error .offsetOutOfBlock ∧
    decodeBus 0x1E02#16 0#32 = .error .badDescriptor ∧ decodeBus 0x0FFF#16 0#32 = .error .misaligned := by decide

/-- R73, R74: one word of each operation; the middle bits of W0 are the offset, its low half the count. -/
theorem test_decode_seq :
    decodeSeq ⟨0x01240000#32, 0#32, 0#32⟩ = .ok (.rd .clksel) ∧
    decodeSeq ⟨0x02200000#32, 0#32, 0x80000000#32⟩ = .ok (.wr .ethpll1 0x80000000#32) ∧
    decodeSeq ⟨0x03280000#32, 0x20#32, 0x21#32⟩ = .ok (.modify .rstctl 0x20#32 0x21#32) ∧
    decodeSeq ⟨0x041C0000#32, 0x80000000#32, 0#32⟩ = .ok (.poll .ethpll0 0x80000000#32 0#32) ∧
    decodeSeq ⟨0x05000000#32, 0#32, 0#32⟩ = .ok .fence ∧ decodeSeq ⟨0x06000000#32, 0#32, 0#32⟩ = .ok .nop ∧
    decodeSeq ⟨0x07000100#32, 0#32, 0#32⟩ = .ok (.delay 256) ∧
    decodeSeq ⟨0x08000000#32, 0#32, 0x3B9ACA00#32⟩ = .ok (.notify 1000000000#32) ∧
    decodeSeq ⟨0x09000000#32, 0#32, 0#32⟩ = .ok .exitIfEmu ∧
    decodeSeq ⟨0x0A000000#32, 0#32, 0#32⟩ = .ok .ret := by decide

/-- E-9 to E-16. -/
theorem test_decode_E9_E16 :
    decodeSeq ⟨0x0B000000#32, 0#32, 0#32⟩ = .error .badOpcode ∧
    decodeSeq ⟨0x00000000#32, 0#32, 0#32⟩ = .error .badOpcode ∧
    decodeSeq ⟨0x05040000#32, 0#32, 0#32⟩ = .error .badOperand ∧
    decodeSeq ⟨0x02240000#32, 1#32, 1#32⟩ = .error .badOperand ∧
    decodeSeq ⟨0x01020000#32, 0#32, 0#32⟩ = .error .misaligned ∧
    decodeSeq ⟨0x01300000#32, 0#32, 0#32⟩ = .error .offsetOutOfBlock ∧
    decodeSeq ⟨0x01080000#32, 0#32, 0#32⟩ = .ok (.rd .rsvd08) ∧
    decodeSeq ⟨0x0700FFFF#32, 0#32, 0#32⟩ = .ok (.delay 65535) := by decide

/-- The encoder writes the rows' words (R71, R74). -/
theorem test_encode :
    encode (.wrEthpll0 0x02128EC0#32) = .bus16 0x8F1C#16 0x02128EC0#32 ∧
    encode (.modify .corepll 1#32 2#32) = .seq96 ⟨0x03040000#32, 1#32, 2#32⟩ ∧
    encode (.delay 256) = .seq96 ⟨0x07000100#32, 0#32, 0#32⟩ := by decide

/-- The rows of the table as the host numbers their bits: RD_CRYSTAL, WR_RSTCTL, FENCE, DELAY with its count. -/
theorem test_decodeTableWord :
    decodeTableWord 16 0x0F00 = some .rdCrystal ∧ decodeTableWord 16 0x8F28 = some (.wrRstctl 0#32) ∧
    decodeTableWord 96 0x05000000 = some .fence ∧ decodeTableWord 96 0x07000100 = some (.delay 256) ∧
    decodeTableWord 96 0x0B000000 = none := by decide

/-- R134, R145: P_INIT is well formed and has 23 operations; its operation 4 polls the core LOCK bit. -/
theorem test_pInit :
    (checkProgram pInit).toOption.map List.length = some 23 ∧
    (pInit[4]?).map (fun q => (decodeSeq q).toOption) = some (some (.poll .corepll 0x80000000#32 0x80000000#32)) := by
  decide

/-- E-20, E-21, and an operation's own reason before NO_FINAL_RET (log 15). -/
theorem test_program_refused :
    checkProgram [⟨0x06000000#32, 0#32, 0#32⟩] = .error .noFinalRet ∧
    checkProgram [⟨0x0A000000#32, 0#32, 0#32⟩, ⟨0x06000000#32, 0#32, 0#32⟩, ⟨0x0A000000#32, 0#32, 0#32⟩] =
      .error .noFinalRet ∧
    checkProgram [⟨0x01020000#32, 0#32, 0#32⟩] = .error .misaligned := by decide

/-! ### Field layouts and the assembler -/

/-- PLL-1 to PLL-3 (R97). -/
theorem test_presets :
    preset .core = 0x02110EC0#32 ∧ preset .ddr = 0x02110DC0#32 ∧ preset .eth = 0x02128EC0#32 := by decide

/-- R70: the four words the protocol writes. -/
theorem test_released :
    released [] = 0#32 ∧ released [.ddrCtrl] = 1#32 ∧ released ddrSet = 0xF#32 ∧ released allSet = 0x2F#32 := by decide

/-- R47: byte 0 of a word is its low byte. -/
theorem test_byteLane : byteLane 0x11223344#32 0 = 0x44#8 ∧ byteLane 0x11223344#32 3 = 0x11#8 := by decide

/-- E-17 to E-19 (R79). -/
theorem test_pseudo :
    encode (asmLockwait .ddrpll0) = .seq96 ⟨0x040C0000#32, 0x80000000#32, 0x80000000#32⟩ ∧
    encode (asmSetf (.bypass .core) 1#32) = .seq96 ⟨0x03040000#32, 0x01000000#32, 0x01000000#32⟩ ∧
    encode (asmRelease ddrSet) = .seq96 ⟨0x02280000#32, 0#32, 0xF#32⟩ := by decide

/-- R78: lines of text, with a label and a comment. -/
theorem test_asm_lines :
    asmLine "start: wr corepll, 0x02110EC0 ; preset".toList = some [.wr .corepll 0x02110EC0#32] ∧
    asmLine "delay 256".toList = some [.delay 256] ∧ asmLine "nops 2".toList = some [.nop, .nop] ∧
    asmLine "setf corepll.LOCK, 1".toList = none := by decide

/-! ### Small states -/

/-- The state after a step or a meaning, or reset if there is none. -/
def after (o : Host.Outcome State Fault Refusal) : State :=
  match o with
  | .next t => t
  | .fault _ => State.reset
  | .refused _ => State.reset

/-- The reasons recorded. -/
def reasons (s : State) : List HazardReason := s.faults.map FaultRec.reason

/-- All five lines at one value. -/
def linesAll (x : Bool) : Lines := { ddrCtrl := x, ddrAxi := x, ddrAhb := x, ddrPhy := x, eth := x }

/-- Every line held in reset: the start state of the PLL- and RC- vectors. -/
def held : State :=
  { State.reset with block := { State.reset.block with rst := linesAll false, obs := linesAll false, ddrprop := .idle } }

/-- A PLL with its preset, locked. -/
def locked (p : PllId) : Pll := { pllOfWord (preset p) with lock := true }

/-- Reset, running the firmware's program at `pc`, the turn being `t`. -/
def running (pc : Nat) (t : Turn) : State :=
  { State.reset with seq := { State.reset.seq with pc := pc, status := .running, ranOnce := true }, sched := [t] }

/-- `s` with a changed block. -/
def inBlock (s : State) (f : Block → Block) : State := { s with block := f s.block }

/-- Every DDR line released, propagation at `d`. -/
def propagating (d : DdrProp) : State := inBlock State.reset fun b => { b with ddrprop := d }

/-! ### Bus transactions, one step each -/

/-- RA-1, at every draw: EN and RDY read 1. -/
theorem test_rdCrystal (d : Word) :
    (readWord .crystal State.reset.block d).getLsbD 31 = true ∧
    (readWord .crystal State.reset.block d).getLsbD 30 = true := by
  simp [readWord, crystalWord, bitAt, State.reset, State.resetWith]

/-- RA-2. -/
theorem test_wrCrystal_same : after (exec (.wrCrystal 0x80000000#32) State.reset) =
    State.reset.log (.write .crystal 0x80000000#32) := by decide

/-- RA-4: only RDY set in the data. -/
theorem test_wrCrystal_off :
    (after (exec (.wrCrystal 0x40000000#32) State.reset)).block.xtalRdy = false ∧
    reasons (after (exec (.wrCrystal 0x40000000#32) State.reset)) = [.xtalDisabledInUse] := by decide

/-- RA-7: the fault and the READ event; nothing is known of the value. -/
theorem test_rdRsvd14 :
    reasons (after (exec .rdRsvd14 State.reset)) = [.reservedAccess .rsvd14] ∧
    (after (exec .rdRsvd14 State.reset)).events.length = 1 := by decide

theorem test_rdRsvd08 : reasons (after (exec .rdRsvd08 State.reset)) = [.reservedAccess .rsvd08] := by decide

theorem test_rdRsvd18 : reasons (after (exec .rdRsvd18 State.reset)) = [.reservedAccess .rsvd18] := by decide

/-- RA-8: the fault record in full (R161). -/
theorem test_wrRsvd18 :
    (after (exec (.wrRsvd18 0#32) State.reset)).faults = [⟨.reservedAccess .rsvd18, .rsvd18, 0#32, 0⟩] ∧
    (after (exec (.wrRsvd18 0#32) State.reset)).block = State.reset.block := by decide

theorem test_wrRsvd08 : reasons (after (exec (.wrRsvd08 0#32) State.reset)) = [.reservedAccess .rsvd08] := by decide

theorem test_wrRsvd14 : reasons (after (exec (.wrRsvd14 0#32) State.reset)) = [.reservedAccess .rsvd14] := by decide

/-- PLL-6, at every draw: LOCK reads 1 after lock, and DIVF bit 0 (bit 6) is that of 59. -/
theorem test_rdCorepll (d : Word) :
    (cfg0Word (locked .core) d).getLsbD 31 = true ∧ (cfg0Word (locked .core) d).getLsbD 6 = true := by
  have h : (locked .core).word = 0x02110EC0#32 := by decide
  constructor <;> (unfold cfg0Word; rw [h]; simp [bitAt, lockRead, locked, pllOfWord, preset, pllWord])

/-- RA-9: a read holds while a write is pending. -/
theorem test_rdDdrpll0_holds :
    after (exec .rdDdrpll0 { State.reset with wbuf := [(.clksel, 1#32)] }) =
      { State.reset with wbuf := [(.clksel, 1#32)] } := by decide

theorem test_rdEthpll0_event : (after (exec .rdEthpll0 State.reset)).events.length = 1 := by decide

/-- PLL-9: every field at its largest, LOCK and the reserved bits ignored. -/
theorem test_wrCorepll_ones :
    (after (exec (.wrCorepll 0xFFFFFFFF#32) held)).block.core = ⟨0x3F#6, 0x1FF#9, 7#3, 7#3, true, true, false⟩ ∧
    reasons (after (exec (.wrCorepll 0xFFFFFFFF#32) held)) = [] := by decide

/-- MX-5. -/
theorem test_wrCorepll_selected :
    reasons (after (exec (.wrCorepll 0x02110EC0#32) (inBlock held fun b => { b with sel := false }))) =
      [.coreReconfigWhileSelected] := by decide

/-- PLL-10: the fault, and the write is still performed. -/
theorem test_wrDdrpll0_active :
    reasons (after (exec (.wrDdrpll0 0x02110DC0#32) State.reset)) = [.reconfigWhileActive .ddr] ∧
    (after (exec (.wrDdrpll0 0x02110DC0#32) State.reset)).block.ddr = ⟨0#6, 55#9, 2#3, 4#3, false, true, false⟩ := by
  decide

/-- PLL-11. -/
theorem test_wrDdrpll0_enabled :
    reasons (after (exec (.wrDdrpll0 0x02110DC0#32) (inBlock held fun b => { b with oeDdr := ⟨true, false⟩ }))) =
      [.reconfigWhileOutputEnabled .ddr] := by decide

/-- R163: both reasons in one step. -/
theorem test_wrEthpll0_both :
    reasons (after (exec (.wrEthpll0 0#32) (inBlock State.reset fun b => { b with oeEth := ⟨true, false⟩ }))) =
      [.reconfigWhileActive .eth, .reconfigWhileOutputEnabled .eth] := by decide

/-- PLL-12: the datasheet's bit 24 is stored and enables nothing. -/
theorem test_wrDdrpll1_bit24 :
    let t := after (exec (.wrDdrpll1 0x01000000#32) (inBlock held fun b => { b with ddr := locked .ddr }))
    t.block.oeDdr = ⟨false, true⟩ ∧ oe t.par t.block .ddr = false ∧ reasons t = [] := by decide

/-- PLL-14. -/
theorem test_wrDdrpll1_unlocked :
    let t := after (exec (.wrDdrpll1 0x80000000#32) held)
    oe t.par t.block .ddr = true ∧ reasons t = [.outputEnabledUnlocked .ddr] := by decide

/-- PLL-15: with the enable at bit 24. -/
theorem test_wrEthpll1_bit24 :
    let t := after (exec (.wrEthpll1 0x80000000#32) { held with par := { held.par with ckeBitEth := .bit24 } })
    t.block.oeEth = ⟨true, false⟩ ∧ oe t.par t.block .eth = false ∧ reasons t = [] := by decide

/-- PLL-16. -/
theorem test_wrEthpll1_active :
    reasons (after (exec (.wrEthpll1 0#32) State.reset)) = [.reconfigWhileActive .eth] := by decide

/-- PLL-17, at every draw. -/
theorem test_rdDdrpll1 (d : Word) :
    (cfg1Word ⟨true, false⟩ d).getLsbD 31 = true ∧ (cfg1Word ⟨true, false⟩ d).getLsbD 24 = false := by
  simp [cfg1Word, bitAt]

theorem test_rdEthpll1_draws : (after (exec .rdEthpll1 State.reset)).draws = 1 := by decide

/-- MX-8, at every draw. -/
theorem test_rdClksel (d : Word) : (readWord .clksel State.reset.block d).getLsbD 0 = true := by
  simp [readWord, clkselWord, bitAt, State.reset, State.resetWith]

/-- MX-2 and MX-3. -/
theorem test_wrClksel_pll :
    let t := after (exec (.wrClksel 0#32) (inBlock held fun b => { b with core := locked .core }))
    coreSrc t.block = .corePll ∧ reasons t = [] ∧
    reasons (after (exec (.wrClksel 0#32) held)) = [.selectUnstablePll] := by decide

/-- MX-6, R112: the bypassed PLL is stable, and the core runs from the reference clock. -/
theorem test_wrClksel_bypassed :
    let t := after (exec (.wrClksel 0#32) (inBlock held fun b => { b with core := pllOfWord 0x03110EC0#32 }))
    coreClock t.block = .pll .reference ∧ reasons t = [] := by decide

/-- MX-4. -/
theorem test_wrClksel_crystal :
    reasons (after (exec (.wrClksel 1#32) (inBlock held fun b => { b with xtalRdy := false }))) =
      [.selectUnreadyCrystal] := by decide

/-- RC-10, at every draw: the register line, not what was observed. -/
theorem test_rdRstctl (d : Word) :
    let b := { held.block with rst := { linesAll false with ddrCtrl := true } }
    (readWord .rstctl b d).getLsbD 0 = true ∧ (readWord .rstctl b d).getLsbD 5 = false := by
  simp [readWord, rstctlWord, Lines.word, bitAt, linesAll]

/-- RC-3. -/
theorem test_wrRstctl_order :
    let t := after (exec (.wrRstctl 0xF#32) held)
    t.block.rst = { linesAll true with eth := false } ∧ reasons t = [.ddrReleaseOrder] := by decide

/-- RC-5: assertion of DDR_CTRL. -/
theorem test_wrRstctl_assert :
    let t := after (exec (.wrRstctl 0x2E#32) State.reset)
    t.block.obs.ddrCtrl = false ∧ t.block.ddrprop = .idle ∧ reasons t = [] := by decide

/-! ### Sequencer operations, one step each -/

/-- SQ: `rd` at a reserved word faults and advances pc (R135). -/
theorem test_rd : (after (exec (.rd .rsvd08) State.reset)).seq.pc = 1 ∧
    reasons (after (exec (.rd .rsvd08) State.reset)) = [.reservedAccess .rsvd08] := by decide

/-- R136's example. -/
theorem test_wr : (after (exec (.wr .clksel 1#32) State.reset)).wbuf = [(.clksel, 1#32)] := by decide

/-- SQ-13: the buffer is full. -/
theorem test_wr_full :
    let s : State := { State.reset with wbuf := List.replicate 4 (.crystal, 0x80000000#32) }
    after (exec (.wr .clksel 1#32) s) = s := by decide

/-- SQ-1: the merged word, at every read word. -/
theorem test_modify_merge (w : Word) : (merge w 1#32 0#32).getLsbD 0 = false ∧
    (merge w 1#32 0#32).getLsbD 7 = w.getLsbD 7 := by
  constructor <;> (rw [getLsbD_merge _ _ _ (by decide)]; simp)

/-- SQ-4: MODIFY posts one write of its register and advances pc. -/
theorem test_modify :
    ((after (exec (.modify .clksel 0#32 1#32) State.reset)).wbuf.map Prod.fst) = [.clksel] ∧
    (after (exec (.modify .clksel 0#32 1#32) State.reset)).seq.pc = 1 := by decide

/-- SQ-6. -/
theorem test_poll_zero : (after (exec (.poll .clksel 0#32 0#32) State.reset)).seq.pc = 1 := by
  have h : exec (.poll .clksel 0#32 0#32) State.reset = .next (busRead .clksel State.reset).2.advance := by
    change Host.Outcome.next (if _ then (if _ then _ else _) else _) = _
    rw [if_pos (show State.reset.wbuf = [] from rfl), if_pos (by simp)]
  rw [h]
  rfl

/-- SQ-7. -/
theorem test_poll_spins : (after (exec (.poll .clksel 0#32 1#32) State.reset)).seq.pc = 0 := by
  have h : exec (.poll .clksel 0#32 1#32) State.reset = .next (busRead .clksel State.reset).2 := by
    change Host.Outcome.next (if _ then (if _ then _ else _) else _) = _
    rw [if_pos (show State.reset.wbuf = [] from rfl), if_neg (by simp)]
  rw [h]
  rfl

/-- FD-1. -/
theorem test_fence : (after (exec .fence State.reset)).events = [.fence] := by decide

/-- FD-2, FD-3: it holds while a write is pending. -/
theorem test_fence_holds :
    let s : State := { State.reset with wbuf := [(.corepll, 0x02110EC0#32)] }
    after (exec .fence s) = s := by decide

/-- RC-11. -/
theorem test_nop_done : (after (exec .nop (propagating (.propagating 15)))).block.ddrprop = .done := by decide

/-- R128's example. -/
theorem test_nop_counts : (after (exec .nop (propagating (.propagating 3)))).block.ddrprop = .propagating 4 := by decide

/-- FD-6. -/
theorem test_delay_zero :
    let t := after (exec (.delay 0) State.reset)
    t.seq.pc = 1 ∧ t.seq.nops = 0 := by decide

/-- FD-4, its first step: one no-op, two to go, pc stays. -/
theorem test_delay_first :
    let t := after (exec (.delay 3) State.reset)
    t.seq.pc = 0 ∧ t.seq.nops = 1 ∧ t.seq.delayCtr = some 2 := by decide

/-- SQ-8. -/
theorem test_notify :
    (after (exec (.notify 1000000000#32) { State.reset with launch := { firmwareLaunch with consumers := [7, 9] } })).events =
      [.notify 7 1000000000#32, .notify 9 1000000000#32] := by decide

/-- SQ-9. -/
theorem test_notify_none :
    (after (exec (.notify 1#32) { State.reset with launch := { firmwareLaunch with consumers := [] } })).events = [] := by
  decide

/-- SQ-10. -/
theorem test_exitIfEmu :
    (after (exec .exitIfEmu { State.reset with launch := { firmwareLaunch with emulated := true } })).seq.pc = 22 := by
  decide

/-- SQ-11. -/
theorem test_exitIfEmu_not :
    (after (exec .exitIfEmu State.reset)).seq.pc = 1 ∧
    (after (exec .exitIfEmu State.reset)).events = [.envQuery false] := by decide

/-- SQ-12: RET with a write pending. -/
theorem test_ret :
    let t := after (exec .ret { State.reset with wbuf := [(.rstctl, 0x2F#32)] })
    t.seq.status = .done ∧ t.wbuf.length = 1 ∧ runOver t = false := by decide

/-! ### Agents, one step each -/

/-- RA-5: the XTAL step. -/
theorem test_xtal :
    (after (step { (inBlock State.reset fun b => { b with xtalRdy := false }) with sched := [.xtal] })).block.xtalRdy =
      true := by decide

/-- PLL-18: no lock without a ready crystal. -/
theorem test_pll_unready :
    (pllStep .ddr (inBlock held fun b => { b with ddr := pllOfWord (preset .ddr), xtalRdy := false })).block.ddr.lock =
      false := by decide

/-- R100: the preset locks. -/
theorem test_pll_locks :
    (pllStep .ddr (inBlock held fun b => { b with ddr := pllOfWord (preset .ddr) })).block.ddr = locked .ddr := by decide

/-- RC-6: the last DDR line to be observed starts propagation. -/
theorem test_rstobs :
    (rstobsStep .ddrCtrl
      (inBlock State.reset fun b => { b with obs := { linesAll true with ddrCtrl := false }, ddrprop := .idle })).block.ddrprop =
      .propagating 0 := by decide

/-- RC-12: with a bound of 0 propagation is done at once. -/
theorem test_rstobs_bound_zero :
    (observe 0 { State.reset.block with obs := { linesAll true with ddrCtrl := false }, ddrprop := .idle } .ddrCtrl).ddrprop =
      .done := by decide

/-- RC-13. -/
theorem test_ddrprop : (ddrpropStep (propagating (.propagating 3))).block.ddrprop = .done := by decide

/-- H-1: the start. -/
theorem test_host_on :
    let t := hostStep (.write onPayload) State.reset
    t.seq.status = .running ∧ t.hostPending = true ∧ t.events = [] := by decide

/-- H-2. -/
theorem test_host_off :
    (hostStep (.write [0x6F#8, 0x66#8, 0x66#8]) State.reset).events = [.host (.write [0x6F#8, 0x66#8, 0x66#8]) (.ok 0)] ∧
    (hostStep (.write [0x6F#8, 0x6E#8, 0x0A#8]) State.reset).seq.status = .idle := by decide

/-- H-3, H-4. -/
theorem test_host_others :
    (hostStep .read State.reset).events = [.host .read .errNotImplemented] ∧
    (hostStep .init State.reset).events = [.host .init .okUnit] ∧
    (hostStep .shutdown State.reset).events = [.host .shutdown .okUnit] := by decide

/-- H-5. -/
theorem test_host_reinit :
    (hostStep (.write onPayload)
      { State.reset with seq := { State.reset.seq with status := .done, ranOnce := true } }).refused = some .reinit := by
  decide

/-- The host's way to run one row's instruction as the first after reset: WR_CLKSEL, and the sequencer's NOP. -/
theorem test_withFetchWord :
    (after (step (State.reset.withFetchWord 16 0x8F24))).events = [.write .clksel 0#32] ∧
    (after (step (State.reset.withFetchWord 96 0x06000000))).seq.nops = 1 := by decide

/-! ### Witnesses: for each statement with hypotheses, a state and operands that meet them -/

/-- `s` with the turn `t`, not running. -/
def withTurn (t : Turn) (s : State) : State := { s with sched := [t] }

theorem test_witness_DecodeInvertsEncode : Instr.wf (.delay 65535) = true ∧ Instr.wf (.wrRstctl 0xFFFFFFFF#32) = true := by decide

theorem test_witness_WordsHaveOneMeaning :
    decodeSeq ⟨0x0428FFFF#32 &&& 0xFFFF0000#32, 1#32, 1#32⟩ = .ok (.poll .rstctl 1#32 1#32) ∧
    decodeBus 0x0F28#16 0xFFFFFFFF#32 = .ok .rdRstctl ∧ decodeBus 0x8F28#16 1#32 = .ok (.wrRstctl 1#32) := by decide

/-- Each branch of the checks, at the values where they meet: the last word 0x28, the first offset past it 0x2C. -/
theorem test_witness_BusDecodeChecksInOrder :
    decodeBus 0x7F00#16 0#32 = .error .badDescriptor ∧ decodeBus 0x0E00#16 0#32 = .error .badWidth ∧
    decodeBus 0x0F2D#16 0#32 = .error .misaligned ∧ decodeBus 0x0F2C#16 0#32 = .error .offsetOutOfBlock ∧
    decodeBus 0x0F28#16 0#32 = .ok .rdRstctl := by decide

/-- Each branch, at the ends of the opcode map and of the offsets. -/
theorem test_witness_SequencerDecodeRefusals :
    decodeSeq ⟨0x0B000000#32, 0#32, 0#32⟩ = .error .badOpcode ∧ decodeSeq ⟨0x00000000#32, 0#32, 0#32⟩ = .error .badOpcode ∧
    decodeSeq ⟨0x0A000001#32, 0#32, 0#32⟩ = .error .badOperand ∧ decodeSeq ⟨0x0129000F#32, 0#32, 0#32⟩ = .error .badOperand ∧
    decodeSeq ⟨0x04290000#32, 1#32, 1#32⟩ = .error .misaligned ∧
    decodeSeq ⟨0x012C0000#32, 0#32, 0#32⟩ = .error .offsetOutOfBlock ∧
    decodeSeq ⟨0x01280000#32, 0#32, 0#32⟩ = .ok (.rd .rstctl) := by decide

/-- An admitted program and each reason of an ill-formed one, two operations failing included: the first decides. -/
theorem test_witness_ProgramAdmittedExactlyIfWellFormed :
    checkProgram [⟨0x0A000000#32, 0#32, 0#32⟩] = .ok [.ret] ∧
    checkProgram ({ firmwareLaunch with program := [] } : Launch).program = .error .noFinalRet ∧
    ((∀ p ∈ [(⟨0x06000000#32, 0#32, 0#32⟩ : SeqWords)], decodeSeq p = .ok .nop) ∧
      decodeSeq ⟨0x0B000000#32, 0#32, 0#32⟩ = .error .badOpcode ∧
      decodeSeq ⟨0x01020000#32, 0#32, 0#32⟩ = .error .misaligned) ∧
    decodeSeq ⟨0x0A000000#32, 0#32, 0#32⟩ = .ok .ret := by decide

theorem test_witness_AddressesOfTheWindow :
    regOfAddr resetParams 0x10000028 = .ok .rstctl ∧ regOfAddr resetParams 0x1000002C = .error .offsetOutOfBlock ∧
    regOfAddr resetParams 0x0FFFFFFC = .error .offsetOutOfBlock ∧ regOfAddr resetParams 0x10000001 = .error .misaligned := by
  decide

/-- Operation 15 of P_INIT is DELAY 256; the last one is RET. -/
theorem test_witness_StepRunsFetchedOperation :
    turnOf (running 15 .seq) = .seq ∧ (running 15 .seq).seq.status = .running ∧ (running 15 .seq).refused = none ∧
    (running 15 .seq).launch.program[15]? = some ⟨0x07000100#32, 0#32, 0#32⟩ ∧
    decodeSeq ⟨0x07000100#32, 0#32, 0#32⟩ = .ok (.delay 256) := by decide

/-- All three clauses: not running; a refused launch; pc at the length of the program; an operation that does not decode. -/
theorem test_witness_SequencerRefusalsInStep :
    (turnOf (withTurn .seq State.reset) = .seq ∧ (withTurn .seq State.reset).seq.status ≠ .running) ∧
    ((running 0 .seq).refuse .reinit).refused ≠ none ∧
    ((running 23 .seq).seq.status = .running ∧ (running 23 .seq).refused = none ∧
      (running 23 .seq).launch.program.length ≤ (running 23 .seq).seq.pc) ∧
    (let s := { running 0 .seq with launch := { firmwareLaunch with program := [⟨0x0B000000#32, 0#32, 0#32⟩] } }
     turnOf s = .seq ∧ s.launch.program[s.seq.pc]? = some ⟨0x0B000000#32, 0#32, 0#32⟩ ∧
       decodeSeq ⟨0x0B000000#32, 0#32, 0#32⟩ = .error .badOpcode) := by decide

theorem test_witness_StepRunsPortTransaction :
    turnOf (withTurn (.port 0x8F24#16 1#32) State.reset) = .port 0x8F24#16 1#32 ∧
    State.reset.seq.status ≠ .running ∧ decodeBus 0x8F24#16 1#32 = .ok (.wrClksel 1#32) ∧
    decodeBus 0x0F2C#16 0#32 = .error .offsetOutOfBlock ∧
    (running 0 (.port 0x8F24#16 1#32)).seq.status = .running := by decide

theorem test_witness_BusPerformsOldestWrite :
    turnOf (withTurn .bus State.reset) = .bus ∧ (withTurn .bus State.reset).wbuf = [] ∧
    ({ withTurn .bus State.reset with wbuf := [(.clksel, 1#32), (.rstctl, 0#32)] } : State).wbuf =
      (.clksel, 1#32) :: [(.rstctl, 0#32)] := by decide

theorem test_witness_CrystalBecomesReady :
    turnOf (withTurn .xtal State.reset) = .xtal ∧
    (inBlock State.reset fun b => { b with xtalRdy := false }).block.xtalEn = true ∧
    (inBlock State.reset fun b => { b with xtalRdy := false }).block.xtalRdy = false := by decide

/-- The cases: a PLL that can lock, one that is locked, one in bypass. -/
theorem test_witness_PllLocksWhenEnabled :
    turnOf (withTurn (.pll .eth) held) = .pll .eth ∧
    (let P := pllOfWord (preset .eth)
     P.lock = false ∧ P.bypass = false ∧ held.block.xtalRdy = true ∧ pllCanLock .eth P.lockCfg = true) ∧
    ¬ (locked .eth).lock = false ∧ (pllOfWord 0x03128EC0#32).bypass = true := by decide

/-- Both cases, and of the second the line that starts propagation and one that does not. -/
theorem test_witness_SubBlockObservesRelease :
    turnOf (withTurn (.rstobs .eth) State.reset) = .rstobs .eth ∧
    ¬ (State.reset.block.rst.get .eth = true ∧ State.reset.block.obs.get .eth = false) ∧
    (let b := { held.block with rst := linesAll true }
     (b.rst.get .eth = true ∧ b.obs.get .eth = false) ∧ (b.rst.get .ddrCtrl = true ∧ b.obs.get .ddrCtrl = false)) := by
  decide

theorem test_witness_PropagationMayCompleteEarly :
    turnOf (withTurn .ddrprop (propagating (.propagating 0))) = .ddrprop ∧
    (propagating (.propagating 0)).block.ddrprop = .propagating 0 ∧ ∀ n, held.block.ddrprop ≠ .propagating n :=
  ⟨by decide, by decide, fun _ h => by cases h⟩

theorem test_witness_HostOperationsWithoutEffect :
    turnOf (withTurn (.host (.write [])) State.reset) = .host (.write []) ∧ State.reset.seq.status ≠ .running ∧
    State.reset.hostPending = false ∧ HostOp.write [] ≠ .write [0x6F#8, 0x6E#8] ∧
    HostOp.write [0x4F#8, 0x4E#8] ≠ .write [0x6F#8, 0x6E#8] ∧
    (running 0 (.host .init)).seq.status = .running ∧
    ({ withTurn (.host .init) State.reset with hostPending := true } : State).hostPending = true := by decide

/-- The first and the second write of "on", and one in a run. -/
theorem test_witness_HostWriteOnStartsOnce :
    turnOf (withTurn (.host (.write [0x6F#8, 0x6E#8])) State.reset) = .host (.write [0x6F#8, 0x6E#8]) ∧
    State.reset.seq.status ≠ .running ∧ State.reset.hostPending = false ∧ State.reset.seq.ranOnce = false ∧
    (let s := { State.reset with seq := { State.reset.seq with status := .done, ranOnce := true } }
     s.seq.status ≠ .running ∧ s.hostPending = false ∧ s.seq.ranOnce = true) ∧
    turnOf (running 0 (.host (.write [0x6F#8, 0x6E#8]))) = .host (.write [0x6F#8, 0x6E#8]) ∧
    (running 0 (.host (.write [0x6F#8, 0x6E#8]))).seq.status = .running := by decide

/-- A pending write of "on" whose run has ended, one whose run has not, and none pending. -/
theorem test_witness_HostWriteReturnsAtEndOfRun :
    turnOf (withTurn .hostReturn { State.reset with hostPending := true }) = .hostReturn ∧
    (let s := { State.reset with hostPending := true, seq := { State.reset.seq with status := .done } }
     s.hostPending = true ∧ s.seq.status = .done ∧ s.wbuf = [] ∧ s.block.obs = s.block.rst) ∧
    (running 0 .hostReturn).seq.status ≠ .done ∧ (withTurn .hostReturn State.reset).hostPending = false := by decide

/-- The reads: a state with nothing pending and one with a pending write. -/
theorem test_witness_Reads :
    State.reset.wbuf = [] ∧ ({ State.reset with wbuf := [(.crystal, 0#32)] } : State).wbuf ≠ [] := by decide

/-- The reads' fields, in bypass and not. -/
theorem test_witness_ReadPllConfig : (pllOfWord 0x03110EC0#32).bypass = true ∧ (pllOfWord 0x02110EC0#32).bypass = false := by decide

/-- The first and the last reserved word, with nothing posted and with a write posted. -/
theorem test_witness_ReservedWordAccessFaults :
    let rows := [(Reg.rsvd08, 0x0F08#16, 0x8F08#16, Instr.rdRsvd08, Instr.wrRsvd08),
      (Reg.rsvd14, 0x0F14#16, 0x8F14#16, Instr.rdRsvd14, Instr.wrRsvd14),
      (Reg.rsvd18, 0x0F18#16, 0x8F18#16, Instr.rdRsvd18, Instr.wrRsvd18)]
    (Reg.rsvd08, 0x0F08#16, 0x8F08#16, Instr.rdRsvd08, Instr.wrRsvd08) ∈ rows ∧
    (Reg.rsvd18, 0x0F18#16, 0x8F18#16, Instr.rdRsvd18, Instr.wrRsvd18) ∈ rows ∧ State.reset.wbuf = [] ∧
    ({ State.reset with wbuf := [(.clksel, 1#32)] } : State).wbuf ≠ [] :=
  ⟨by simp, by simp, rfl, by decide⟩

theorem test_witness_AssertionHasNoHazard :
    0x2E#32 &&& 0x2F#32 &&& ~~~State.reset.block.rst.word = 0#32 ∧ 0#32 &&& 0x2F#32 &&& ~~~held.block.rst.word = 0#32 := by
  decide

theorem test_witness_IgnoredBitsOfAWriteDoNotMatter :
    0x82110EC0#32 &&& 0x031FFFFF#32 = 0x02110EC0#32 &&& 0x031FFFFF#32 ∧
    0xFFFFFFEF#32 &&& 0x2F#32 = 0x2F#32 &&& 0x2F#32 := by decide

/-- The block invariant, which the reset state meets, and one with a propagation in progress. -/
theorem test_witness_blockInv :
    blockInv State.reset.par State.reset.block ∧ blockInv resetParams (propagating (.propagating 15)).block := by
  refine ⟨⟨fun _ => rfl, fun x h => h, by decide, fun n h => by cases h⟩,
    ⟨fun _ => rfl, fun x h => h, by decide, ?_⟩⟩
  intro n h
  cases h
  decide

theorem test_witness_WriteBackOfReadWordKeepsRegister :
    State.reset.wbuf = [] ∧ blockInv State.reset.par State.reset.block ∧ Reg.rstctl ≠ .rsvd08 ∧ Reg.rstctl ≠ .rsvd14 ∧
    Reg.rstctl ≠ .rsvd18 := ⟨rfl, test_witness_blockInv.1, by decide, by decide, by decide⟩

/-- The posting and the holding case at the boundary: three and four writes in a buffer of four. -/
theorem test_witness_SequencerWrite :
    ({ State.reset with wbuf := List.replicate 3 (.crystal, 0#32) } : State).wbuf.length < State.reset.par.wbufDepth ∧
    State.reset.par.wbufDepth ≤ ({ State.reset with wbuf := List.replicate 4 (.crystal, 0#32) } : State).wbuf.length := by
  decide

/-- SequencerRead, SequencerModify, SequencerPoll: nothing pending; one write pending; the smallest buffer full. -/
theorem test_witness_SequencerModify :
    State.reset.wbuf = [] ∧
    (let s : State := { State.reset with wbuf := [(.crystal, 0#32)] }
     s.wbuf ≠ [] ∨ s.par.wbufDepth ≤ s.wbuf.length) ∧
    (let s : State := { State.reset with
        par := { resetParams with wbufDepth := 1, wbufDepth_pos := by decide }, wbuf := [(.crystal, 0#32)] }
     s.par.wbufDepth ≤ s.wbuf.length) := by decide

/-- Both cases of SequencerPoll: for a read word `w`, VALUE equal to the masked word, and not. -/
theorem test_witness_SequencerPoll (w : Word) : w &&& 0#32 = 0#32 ∧ ¬ w &&& 0#32 = 1#32 := by simp

theorem test_witness_PollThatCannotMatchSpins : 0x80000000#32 &&& ~~~0x7FFFFFFF#32 ≠ 0#32 ∧ State.reset.wbuf = [] := by decide

/-- Ready; a write pending; a released line unobserved. -/
theorem test_witness_FenceWaitsForWritesAndObservation :
    (State.reset.wbuf = [] ∧ ∀ x, State.reset.block.obs.get x = State.reset.block.rst.get x) ∧
    ({ State.reset with wbuf := [(.crystal, 0#32)] } : State).wbuf ≠ [] ∧
    ¬ ∀ x, (inBlock held fun b => { b with rst := linesAll true }).block.obs.get x =
      (inBlock held fun b => { b with rst := linesAll true }).block.rst.get x :=
  ⟨⟨rfl, fun _ => rfl⟩, by decide, fun h => absurd (h .eth) (by decide)⟩

/-- The counts 0, 1 and more than 1, from the start and in progress, and the largest encoded count. -/
theorem test_witness_DelayStep :
    (65535 < 65536) ∧ State.reset.seq.delayCtr = none ∧
    ({ State.reset with seq := { State.reset.seq with delayCtr := some 1 } } : State).seq.delayCtr = some 1 := by decide

/-- `k` at its ends, 1 and `n`. -/
theorem test_witness_DelayTakesExactlyItsCount :
    State.reset.seq.delayCtr = none ∧ (1 ≤ 1 ∧ 1 ≤ 256) ∧ (1 ≤ 256 ∧ 256 ≤ 256) ∧ (1 ≤ 1 ∧ 1 ≤ 1) := by decide

/-- FD-5's state, with the bound equal to the count. -/
theorem test_witness_DelayOutlastsPropagation :
    let s := propagating (.propagating 0)
    s.seq.delayCtr = none ∧ s.block.ddrprop = .propagating 0 ∧ 1 ≤ 16 ∧ s.par.resetPropNops ≤ 16 := by decide

theorem test_witness_NotifyEveryConsumerInOrder :
    ({ firmwareLaunch with consumers := [7, 9] } : Launch).consumers[1]? = some 9 := by decide

/-- Both answers. -/
theorem test_witness_ExitIfEmulated :
    ({ firmwareLaunch with emulated := true } : Launch).emulated = true ∧ firmwareLaunch.emulated = false := by decide

/-- A block with a propagation in progress, and a step from it. -/
theorem test_witness_EveryStepKeepsBlockInvariant :
    let s := withTurn .ddrprop (propagating (.propagating 15))
    blockInv s.par s.block ∧ step s = .next (after (step s)) := ⟨test_witness_blockInv.2, rfl⟩

/-- A full buffer meets its bound, and a step from it. -/
theorem test_witness_EveryStepKeepsBufferBound :
    let s : State := { withTurn .bus State.reset with wbuf := List.replicate 4 (.crystal, 0x80000000#32) }
    bufferInv s ∧ step s = .next (after (step s)) := by
  refine ⟨?_, rfl⟩
  unfold bufferInv
  decide

/-- A sequencer in the middle of P_INIT's DELAY 256, and a step from it. -/
theorem test_witness_EveryStepKeepsSequencerInvariant :
    let s : State := { running 15 .seq with
      seq := { pc := 15, status := .running, delayCtr := some 255, nops := 1, ranOnce := true } }
    seqInv s ∧ step s = .next (after (step s)) := by
  refine ⟨⟨by decide, by decide, ?_⟩, rfl⟩
  intro c h
  cases h
  exact ⟨rfl, ⟨0x07000100#32, 0#32, 0#32⟩, 256, by decide, by decide, by decide, by decide⟩

/-- P_INIT, running at its last operation, and a step from it. -/
theorem test_witness_WellFormedProgramStaysInRange :
    programInv (running 22 .seq) ∧ turnOf (running 22 .seq) = .seq ∧
    step (running 22 .seq) = .next (after (step (running 22 .seq))) :=
  ⟨⟨⟨_, rfl⟩, by decide⟩, by decide, rfl⟩

/-- One recorded fault and its WRITE event, and a step from there. -/
theorem test_witness_EveryStepKeepsFaultRecords :
    let s : State := { withTurn .seq State.reset with
      events := [.write .rsvd08 0#32], faults := [⟨.reservedAccess .rsvd08, .rsvd08, 0#32, 0⟩] }
    faultsInv s ∧ step s = .next (after (step s)) := by
  refine ⟨⟨?_, by decide⟩, rfl⟩
  intro f hf
  cases List.mem_singleton.1 hf
  exact .inr rfl

/-- A refused state has a next one. -/
theorem test_witness_RecordsAreSticky :
    let s := (withTurn .seq State.reset).refuse .badOpcode
    s.refused ≠ none ∧ step s = .next s.endTurn := ⟨by decide, rfl⟩

/-- Both moves of the status: the host's start and RET. -/
theorem test_witness_StatusMovesOnlyForward :
    seqInv (running 22 .seq) ∧
    (after (step (withTurn (.host (.write onPayload)) State.reset))).seq.status = .running ∧
    (after (step (running 22 .seq))).seq.status = .done :=
  ⟨⟨by decide, by decide, fun _ h => by cases h⟩, by decide, by decide⟩

/-- Both changes of LOCK: the detector's step, and a write of the word. -/
theorem test_witness_LockChangesOnlyByDetectorOrWrite :
    (after (step (withTurn (.pll .ddr) (inBlock held fun b => { b with ddr := pllOfWord (preset .ddr) })))).block.ddr.lock =
      true ∧
    (after (step (withTurn (.port 0x8F0C#16 0#32) (inBlock held fun b => { b with ddr := locked .ddr })))).block.ddr.lock =
      false := by decide

/-- A step that performs no write. -/
theorem test_witness_RegistersChangeOnlyByPerformedWrites :
    step (withTurn .bus State.reset) = .next (withTurn .bus State.reset).endTurn ∧
    ∀ r v, (withTurn .bus State.reset).endTurn.events ≠ (withTurn .bus State.reset).events ++ [.write r v] :=
  ⟨rfl, fun _ _ h => by cases h⟩

/-- An operation other than FENCE with other observations, and FENCE with the same. -/
theorem test_witness_HiddenStateIsInvisibleToOperations :
    Instr.isSeq (.rd .rstctl) = true ∧ (Instr.rd .rstctl = .fence → linesAll false = State.reset.block.obs) ∧
    Instr.isSeq .fence = true ∧ (Instr.fence = .fence → State.reset.block.obs = State.reset.block.obs) :=
  ⟨rfl, fun h => (nomatch h), rfl, fun _ => rfl⟩

/-- P_INIT's first fence, with the release of the DDR controller pending. -/
theorem test_witness_FenceCompletesAfterPendingWork :
    let s : State := { running 12 .seq with
      block := held.block, wbuf := [(.rstctl, 1#32)]
      sched := [.bus, .rstobs .ddrCtrl, .rstobs .ddrAxi, .rstobs .ddrAhb, .rstobs .ddrPhy, .rstobs .eth, .seq] }
    blockInv s.par s.block ∧ s.seq.status = .running ∧ s.refused = none ∧
    s.launch.program[s.seq.pc]? = some ⟨0x05000000#32, 0#32, 0#32⟩ ∧
    decodeSeq ⟨0x05000000#32, 0#32, 0#32⟩ = .ok .fence ∧
    s.sched = List.replicate s.wbuf.length .bus ++
      [.rstobs .ddrCtrl, .rstobs .ddrAxi, .rstobs .ddrAhb, .rstobs .ddrPhy, .rstobs .eth, .seq] := by
  refine ⟨⟨fun _ => rfl, ?_, by decide, fun n h => by cases h⟩, rfl, rfl, rfl, by decide, rfl⟩
  intro x h
  cases x <;> cases h

theorem test_witness_LockPollWaitsForDetector :
    let s := withTurn (.pll .core) (inBlock held fun b => { b with core := pllOfWord (preset .core) })
    s.wbuf = [] ∧ (s.block.pll .core).bypass = false ∧ (s.block.pll .core).lock = false ∧ s.block.xtalRdy = true ∧
    pllCanLock .core (s.block.pll .core).lockCfg = true ∧ turnOf s = .pll .core := by decide

end Sys2Proof.Tests
end

/-! SUPPORT. What an instruction and a step can do to the parts of the state that the statements of 10_state.md speak of:
consequences of `ExecTo` and `StepTo` that several proofs share. -/

namespace Sys2Proof.Machine

/-! ### The faults after a performed read and a performed write -/

theorem prefix_busRead_faults (r : Reg) (s : State) : s.faults <+: (busRead r s).2.faults :=
  prefix_raise_faults s _ r _

theorem prefix_performWrite_faults (r : Reg) (v : Word) (s : State) : s.faults <+: (performWrite r v s).faults :=
  prefix_raise_faults s _ r v

/-! ### The frame of an instruction and of a step -/

variable {s t : State} {i : Instr} {turn : Turn}

/-- No instruction writes the parameters, the launch, the refusal mark or the mark of a pending host write. -/
theorem ExecTo.frame (h : ExecTo s i t) :
    t.par = s.par ∧ t.launch = s.launch ∧ t.refused = s.refused ∧ t.hostPending = s.hostPending := by
  cases h <;> exact ⟨rfl, rfl, rfl, rfl⟩

/-- No step writes the parameters or the launch (R6, R32). -/
theorem StepTo.frame (h : StepTo s turn t) : t.par = s.par ∧ t.launch = s.launch := by
  cases h with
  | seqExec _ _ _ _ _ _ _ hx | portExec _ _ _ _ _ _ hx =>
    obtain ⟨hpar, hlaunch, -, -⟩ := hx.frame
    exact ⟨hpar, hlaunch⟩
  | _ => exact ⟨rfl, rfl⟩

/-- An instruction leaves the block as it is, counts one no-op toward propagation, or is the performed write of a
register, whose event it appends. -/
theorem ExecTo.block_cases (h : ExecTo s i t) :
    t.block = s.block ∨ t.block = s.retireNop.block ∨
      ∃ r v, t.block = writeBlock r s.block v ∧ t.events = s.events ++ [.write r v] := by
  cases h with
  | nop | delayLast | delayMore => exact .inr (.inl rfl)
  | write r v => exact .inr (.inr ⟨r, v, rfl, rfl⟩)
  | _ => exact .inl rfl

end Sys2Proof.Machine

/-! SUPPORT. The block invariant (10_state.md R26, R27): each way a step changes the block keeps it. -/

namespace Sys2Proof.Machine

variable {par : Params} {b : Block}

/-! ### Observed lines and propagation -/

@[simp] theorem propCount_ne_idle (bound n : Nat) : propCount bound n ≠ .idle := by
  unfold propCount; split <;> simp

/-- A count that propagation stands at is below its bound (R124). -/
theorem lt_of_propCount_eq {bound n m : Nat} (h : propCount bound n = .propagating m) : m < bound := by
  unfold propCount at h
  split at h
  · cases h
  · cases h; omega

@[simp] theorem propNop_eq_idle_iff (bound : Nat) (d : DdrProp) : propNop bound d = .idle ↔ d = .idle := by
  cases d <;> simp [propNop]

theorem lt_of_propNop_eq {bound m : Nat} {d : DdrProp} (h : propNop bound d = .propagating m) : m < bound := by
  cases d with
  | propagating n => exact lt_of_propCount_eq h
  | idle | done => cases h

/-- A DDR line that is still unobserved keeps the DDR lines from being all observed. -/
theorem Lines.ddrAll_eq_false_of_get {l : Lines} {x : SubBlock} (hx : x ∈ ddrSet) (h : l.get x = false) :
    l.ddrAll = false := by
  rw [Bool.eq_false_iff, ne_eq, Lines.ddrAll_iff]
  intro all
  simp [all x hx] at h

theorem eq_eth_of_not_mem_ddrSet {x : SubBlock} (hx : x ∉ ddrSet) : x = .eth := by
  cases x with
  | eth => rfl
  | _ => simp [ddrSet] at hx

/-- Ethernet's line is no DDR line. -/
@[simp] theorem Lines.ddrAll_set_eth (l : Lines) (v : Bool) : (l.set .eth v).ddrAll = l.ddrAll := rfl

/-! ### Each change of the block -/

theorem blockInv_propNop (inv : blockInv par b) :
    blockInv par { b with ddrprop := propNop par.resetPropNops b.ddrprop } := by
  obtain ⟨hxtal, hobs, hidle, -⟩ := inv
  exact ⟨hxtal, hobs, (propNop_eq_idle_iff ..).trans hidle, fun _ => lt_of_propNop_eq⟩

theorem blockInv_setPll (inv : blockInv par b) (p : PllId) (x : Pll) : blockInv par (b.setPll p x) := by
  simpa [blockInv] using inv

theorem blockInv_setOeBits (inv : blockInv par b) (p : OePll) (x : OeBits) : blockInv par (b.setOeBits p x) := by
  simpa [blockInv] using inv

theorem blockInv_writeCrystal (inv : blockInv par b) (v : Word) : blockInv par (writeCrystal b v) := by
  obtain ⟨-, hobs, hidle, hcount⟩ := inv
  refine ⟨fun ready => ?_, hobs, hidle, hcount⟩
  exact (Bool.and_eq_true_iff.1 ready).2

@[simp] theorem writeRstctl_obs_get (b : Block) (v : Word) (x : SubBlock) :
    (writeRstctl b v).obs.get x = (b.obs.get x && (linesOfWord v).get x) := by
  cases x <;> rfl

@[simp] theorem writeRstctl_obs_ddrAll (b : Block) (v : Word) :
    (writeRstctl b v).obs.ddrAll = (b.obs.ddrAll && (linesOfWord v).ddrAll) := by
  simp only [writeRstctl, Lines.ddrAll]
  ac_rfl

theorem writeRstctl_ddrprop (b : Block) (v : Word) :
    (writeRstctl b v).ddrprop = if (linesOfWord v).ddrAll then b.ddrprop else .idle := rfl

/-- An asserted line is observed at once, so what is observed stays released (R118), and a DDR line left at 0 sets
propagation back to idle (R119). -/
theorem blockInv_writeRstctl (inv : blockInv par b) (v : Word) : blockInv par (writeRstctl b v) := by
  obtain ⟨hxtal, hobs, hidle, hcount⟩ := inv
  have seen : ∀ x, (writeRstctl b v).obs.get x = true → (linesOfWord v).get x = true := by simp
  cases hnew : (linesOfWord v).ddrAll with
  | true => exact ⟨hxtal, seen, by simpa [writeRstctl_ddrprop, hnew] using hidle,
      by simpa [writeRstctl_ddrprop, hnew] using hcount⟩
  | false => exact ⟨hxtal, seen, by simp [writeRstctl_ddrprop, hnew], by simp [writeRstctl_ddrprop, hnew]⟩

/-- Every performed write keeps the block invariant. -/
theorem blockInv_writeBlock (inv : blockInv par b) (r : Reg) (v : Word) : blockInv par (writeBlock r b v) := by
  cases r with
  | crystal => exact blockInv_writeCrystal inv v
  | corepll => exact blockInv_setPll inv .core _
  | ddrpll0 => exact blockInv_setPll inv .ddr _
  | ethpll0 => exact blockInv_setPll inv .eth _
  | ddrpll1 => exact blockInv_setOeBits inv .ddr _
  | ethpll1 => exact blockInv_setOeBits inv .eth _
  | rstctl => exact blockInv_writeRstctl inv v
  | clksel | rsvd08 | rsvd14 | rsvd18 => exact inv

/-- Observing a released line keeps the invariant: the last DDR line to be observed finds propagation idle and starts
it (R120, R122). -/
theorem blockInv_observe (inv : blockInv par b) {x : SubBlock} (released : b.rst.get x = true)
    (unseen : b.obs.get x = false) : blockInv par (observe par.resetPropNops b x) := by
  obtain ⟨hxtal, hobs, hidle, hcount⟩ := inv
  have hseen : ∀ y, (b.obs.set x true).get y = true → b.rst.get y = true := by
    intro y hy
    rw [Lines.get_set] at hy
    split at hy
    · rename_i hyx; rwa [hyx]
    · exact hobs y hy
  by_cases hx : x ∈ ddrSet
  · have idle : b.ddrprop = .idle := hidle.2 (Lines.ddrAll_eq_false_of_get hx unseen)
    cases hall : (b.obs.set x true).ddrAll with
    | true => exact ⟨hxtal, hseen, by simp [observe, hx, idle, hall],
        fun n hn => lt_of_propCount_eq (by simpa [observe, hx, idle, hall] using hn)⟩
    | false => exact ⟨hxtal, hseen, by simp [observe, idle, hall], by simp [observe, idle, hall]⟩
  · cases eq_eth_of_not_mem_ddrSet hx
    exact ⟨hxtal, hseen, by simpa [observe, ddrSet] using hidle, by simpa [observe, ddrSet] using hcount⟩

/-! ### Every instruction and every step -/

variable {s t : State} {i : Instr} {turn : Turn}

theorem ExecTo.keeps_blockInv (h : ExecTo s i t) (inv : blockInv s.par s.block) : blockInv t.par t.block := by
  obtain ⟨hpar, -, -, -⟩ := h.frame
  rw [hpar]
  rcases h.block_cases with hb | hb | ⟨r, v, hb, -⟩ <;> rw [hb]
  · exact inv
  · exact blockInv_propNop inv
  · exact blockInv_writeBlock inv r v

theorem StepTo.keeps_blockInv (h : StepTo s turn t) (inv : blockInv s.par s.block) : blockInv t.par t.block := by
  cases h with
  | seqExec _ _ _ _ _ _ _ hx | portExec _ _ _ _ _ _ hx => exact hx.keeps_blockInv inv
  | bus r v _ _ => exact blockInv_writeBlock inv r v
  | pll p _ _ => exact blockInv_setPll inv p _
  | rstobs x released unseen => exact blockInv_observe inv released unseen
  | xtal en =>
    obtain ⟨-, hobs, hidle, hcount⟩ := inv
    exact ⟨fun _ => en, hobs, hidle, hcount⟩
  | ddrprop n h =>
    obtain ⟨hxtal, hobs, hidle, -⟩ := inv
    have seen : s.block.obs.ddrAll = true := by simpa [h] using hidle
    exact ⟨hxtal, hobs, by simp [seen], fun _ hn => by cases hn⟩
  | _ => exact inv

/-- Settles O48: each change of the block that a step can make keeps the invariant. -/
theorem everyStepKeepsBlockInvariant : Obligations.EveryStepKeepsBlockInvariant :=
  fun _ _ inv h => (step_to h).keeps_blockInv inv

end Sys2Proof.Machine

/-! SUPPORT. The bound of the write buffer (10_state.md R28). -/

namespace Sys2Proof.Machine

variable {s t : State} {i : Instr} {turn : Turn}

/-- An instruction leaves the posted writes as they are, or adds one where there is room for it (R52). -/
theorem ExecTo.wbuf_cases (h : ExecTo s i t) :
    t.wbuf = s.wbuf ∨ s.wbuf.length < s.par.wbufDepth ∧ ∃ r v, t.wbuf = s.wbuf ++ [(r, v)] := by
  cases h with
  | modify r m v x empty =>
    exact .inr ⟨(wbufFull_eq_false_iff s).1 (wbufFull_of_empty empty), r, x, by rw [empty]; rfl⟩
  | post r v room => exact .inr ⟨room, r, v, rfl⟩
  | _ => exact .inl rfl

theorem ExecTo.keeps_bufferInv (h : ExecTo s i t) (inv : bufferInv s) : bufferInv t := by
  obtain ⟨hpar, -, -, -⟩ := h.frame
  unfold bufferInv at *
  rw [hpar]
  rcases h.wbuf_cases with hw | ⟨room, r, v, hw⟩ <;> rw [hw]
  · exact inv
  · simpa using room

theorem StepTo.keeps_bufferInv (h : StepTo s turn t) (inv : bufferInv s) : bufferInv t := by
  cases h with
  | seqExec _ _ _ _ _ _ _ hx | portExec _ _ _ _ _ _ hx => exact hx.keeps_bufferInv inv
  | bus r v rest hw =>
    have fits : (rest.length + 1) ≤ s.par.wbufDepth := by simpa [bufferInv, hw] using inv
    exact Nat.le_of_succ_le fits
  | _ => exact inv

/-- Settles O49: only a posted write makes the buffer longer, and it is posted only where there is room. -/
theorem everyStepKeepsBufferBound : Obligations.EveryStepKeepsBufferBound :=
  fun _ _ inv h => (step_to h).keeps_bufferInv inv

end Sys2Proof.Machine

/-! SUPPORT. The sequencer's invariant (10_state.md R29, 44_fence_and_delay.md R132). -/

namespace Sys2Proof.Machine

variable {s t : State} {i : Instr} {turn : Turn}

/-- The invariant speaks of the sequencer, the launch and the pending host write only. -/
theorem seqInv_congr (hseq : t.seq = s.seq) (hlaunch : t.launch = s.launch) (hpending : t.hostPending = s.hostPending)
    (inv : seqInv s) : seqInv t := by
  unfold seqInv fetch at *
  rwa [hseq, hlaunch, hpending]

/-- While no count is in progress the invariant asks only for the run flag. -/
theorem seqInv_of_noCount (ran : t.seq.ranOnce = true ↔ t.seq.status ≠ .idle)
    (pending : t.hostPending = true → t.seq.ranOnce = true) (noCount : t.seq.delayCtr = none) : seqInv t :=
  ⟨ran, pending, fun c hc => by simp [noCount] at hc⟩

/-- No count is in progress while the sequencer does not run. -/
theorem seqInv.noCount_of_not_running (inv : seqInv s) (idle : s.seq.status ≠ .running) : s.seq.delayCtr = none := by
  obtain ⟨-, -, hcount⟩ := inv
  refine Option.eq_none_iff_forall_not_mem.2 fun c hc => ?_
  obtain ⟨running, -⟩ := hcount c hc
  exact idle running

/-- No count is in progress at an operation other than DELAY. -/
theorem seqInv.noCount_of_not_delay (inv : seqInv s) {q : SeqWords} (hf : fetch s = some q)
    (hd : decodeSeq q = .ok i) (other : ∀ n, i ≠ .delay n) : s.seq.delayCtr = none := by
  obtain ⟨-, -, hcount⟩ := inv
  refine Option.eq_none_iff_forall_not_mem.2 fun c hc => ?_
  obtain ⟨-, q', n, hf', hd', -⟩ := hcount c hc
  cases hf.symm.trans hf'
  cases hd.symm.trans hd'
  exact other n rfl

/-- At DELAY n the count still to go is at most `n`. -/
theorem seqInv.getD_le (inv : seqInv s) {q : SeqWords} {n : Nat} (hf : fetch s = some q)
    (hd : decodeSeq q = .ok (.delay n)) : s.seq.delayCtr.getD n ≤ n := by
  obtain ⟨-, -, hcount⟩ := inv
  cases hc : s.seq.delayCtr with
  | none => exact Nat.le_refl n
  | some c =>
    obtain ⟨-, q', n', hf', hd', -, hlt⟩ := hcount c hc
    cases hf.symm.trans hf'
    cases hd.symm.trans hd'
    exact hlt.le

theorem ofRead_ne_delay (r : Reg) (n : Nat) : Instr.ofRead r ≠ .delay n := by cases r <;> nofun

/-- No instruction starts a run; RET alone moves the status, to DONE (R139). -/
theorem ExecTo.status_cases (h : ExecTo s i t) : t.seq.ranOnce = s.seq.ranOnce ∧
    (t.seq.status = s.seq.status ∨ i = .ret ∧ t.seq.status = .done) := by
  cases h with
  | ret => exact ⟨rfl, .inr ⟨rfl, rfl⟩⟩
  | _ => exact ⟨rfl, .inl rfl⟩

/-- What an instruction does to the count in progress: DELAY alone changes it, and leaves none or one less than it
found (R129). -/
theorem ExecTo.count_cases (h : ExecTo s i t) :
    t.seq = s.seq ∨ ((∀ n, i ≠ .delay n) ∧ t.seq.delayCtr = s.seq.delayCtr) ∨
      ∃ n, i = .delay n ∧ (t.seq.delayCtr = none ∨
        ∃ c, s.seq.delayCtr.getD n = c + 2 ∧ t = s.retireNop.setDelay (some (c + 1))) := by
  cases h with
  | hold | write => exact .inl rfl
  | delayNone n _ | delayLast n _ => exact .inr (.inr ⟨n, rfl, .inl rfl⟩)
  | delayMore n c count => exact .inr (.inr ⟨n, rfl, .inr ⟨c, count, rfl⟩⟩)
  | read _ r _ _ _ hi =>
    refine .inr (.inl ⟨fun n => ?_, rfl⟩)
    rcases hi with rfl | ⟨m, v, rfl⟩ | rfl
    · nofun
    · nofun
    · exact ofRead_ne_delay r n
  | _ => exact .inr (.inl ⟨fun _ => nofun, rfl⟩)

/-- The run flag still tells whether the status has left IDLE, where RET runs only in a run. -/
theorem ExecTo.keeps_runFlag (h : ExecTo s i t) (ran : s.seq.ranOnce = true ↔ s.seq.status ≠ .idle)
    (inRun : i = .ret → s.seq.status = .running) : t.seq.ranOnce = true ↔ t.seq.status ≠ .idle := by
  obtain ⟨hran, hstatus | ⟨hret, hdone⟩⟩ := h.status_cases
  · rw [hran, hstatus, ran]
  · simp [hran, hdone, ran, inRun hret]

/-- An instruction that leaves no count in progress keeps the invariant. -/
theorem ExecTo.keeps_seqInv_of_noCount (h : ExecTo s i t) (inv : seqInv s) (inRun : i = .ret → s.seq.status = .running)
    (noCount : t.seq.delayCtr = none) : seqInv t := by
  obtain ⟨ran, pending, -⟩ := inv
  obtain ⟨-, -, -, hpending⟩ := h.frame
  obtain ⟨hran, -⟩ := h.status_cases
  exact seqInv_of_noCount (h.keeps_runFlag ran inRun) (by rwa [hpending, hran]) noCount

/-- An operation that SEQ fetched and executed keeps the invariant. -/
theorem ExecTo.keeps_seqInv_of_fetch (h : ExecTo s i t) (inv : seqInv s) {q : SeqWords}
    (running : s.seq.status = .running) (hf : fetch s = some q) (hd : decodeSeq q = .ok i) : seqInv t := by
  have of_noCount := h.keeps_seqInv_of_noCount inv fun _ => running
  rcases h.count_cases with hseq | ⟨other, hsame⟩ | ⟨n, rfl, hnone | ⟨c, count, rfl⟩⟩
  · obtain ⟨-, hlaunch, -, hpending⟩ := h.frame
    exact seqInv_congr hseq hlaunch hpending inv
  · exact of_noCount (hsame.trans (inv.noCount_of_not_delay hf hd other))
  · exact of_noCount hnone
  · have bound := inv.getD_le hf hd
    obtain ⟨ran, pending, -⟩ := inv
    refine ⟨ran, pending, fun c' hc' => ⟨running, q, n, hf, hd, ?_⟩⟩
    cases hc'
    omega

/-- A bus transaction at the port, which runs only outside a run, keeps the invariant. -/
theorem ExecTo.keeps_seqInv_of_port (h : ExecTo s i t) (inv : seqInv s) (idle : s.seq.status ≠ .running)
    (hi : i.isSeq = false) : seqInv t := by
  refine h.keeps_seqInv_of_noCount inv (fun hret => ?_) ?_
  · simp [hret, Instr.isSeq] at hi
  · have noCount := inv.noCount_of_not_running idle
    rcases h.count_cases with hseq | ⟨-, hsame⟩ | ⟨n, rfl, -⟩
    · rw [hseq, noCount]
    · rw [hsame, noCount]
    · simp [Instr.isSeq] at hi

theorem StepTo.keeps_seqInv (h : StepTo s turn t) (inv : seqInv s) : seqInv t := by
  cases h with
  | seqExec q i _ running _ hf hd hx => exact hx.keeps_seqInv_of_fetch inv running hf hd
  | portExec _ _ i _ idle hi hx => exact hx.keeps_seqInv_of_port inv idle hi
  | hostStart idle _ =>
    exact seqInv_of_noCount (by simp) (fun _ => rfl) (inv.noCount_of_not_running idle)
  | hostReturn _ =>
    obtain ⟨ran, -, hcount⟩ := inv
    exact ⟨ran, fun h => (nomatch h), hcount⟩
  | _ => exact seqInv_congr rfl rfl rfl inv

/-- Settles O50: a count in progress belongs to the DELAY at pc, so only that DELAY's own steps and the start of a run
need an argument. -/
theorem everyStepKeepsSequencerInvariant : Obligations.EveryStepKeepsSequencerInvariant :=
  fun _ _ inv h => (step_to h).keeps_seqInv inv

end Sys2Proof.Machine

/-! SUPPORT. Which addresses name a register word (10_state.md R15, R16; 20_memory.md R45, R46, R49). -/

namespace Sys2Proof.Machine

/-- An offset names a word exactly if it is that word's own. -/
theorem regOfOff_eq_ok_iff (off : BitVec 8) (r : Reg) : regOfOff off = .ok r ↔ off = r.off := by
  constructor
  · intro h
    unfold regOfOff at h
    split at h
    · cases h
    · split at h <;> cases h <;> exact BitVec.eq_of_toNat_eq ‹_›
  · rintro rfl
    cases r <;> rfl

/-- The offsets of the eleven words are the multiples of 4 below 0x2C (R16). -/
theorem exists_off_toNat_eq_iff (n : Nat) : (∃ r : Reg, r.off.toNat = n) ↔ n < 0x2C ∧ n % 4 = 0 := by
  constructor
  · rintro ⟨r, rfl⟩
    exact (Laws.EncodedForm.off_aligned r).symm
  · rintro ⟨hlt, haligned⟩
    obtain ⟨k, rfl⟩ : ∃ k, n = 4 * k := ⟨n / 4, by omega⟩
    have index : k < 11 := by omega
    interval_cases k
    exacts [⟨.crystal, rfl⟩, ⟨.corepll, rfl⟩, ⟨.rsvd08, rfl⟩, ⟨.ddrpll0, rfl⟩, ⟨.ddrpll1, rfl⟩, ⟨.rsvd14, rfl⟩,
      ⟨.rsvd18, rfl⟩, ⟨.ethpll0, rfl⟩, ⟨.ethpll1, rfl⟩, ⟨.clksel, rfl⟩, ⟨.rstctl, rfl⟩]

/-- An address names a word exactly if it is that word's own. -/
theorem regOfAddr_eq_ok_iff (par : Params) (a : Nat) (r : Reg) : regOfAddr par a = .ok r ↔ a = r.addr par := by
  have hoff := r.off.isLt
  unfold regOfAddr Reg.addr
  split
  · simp; omega
  · rw [regOfOff_eq_ok_iff, ← BitVec.toNat_inj, BitVec.toNat_ofNat, Nat.mod_eq_of_lt (by omega)]
    omega

/-- Settles O7: an address names a word exactly if it is the word's own, and the words' offsets are the multiples of 4
below 0x2C. -/
theorem addressesOfTheWindow : Obligations.AddressesOfTheWindow := by
  intro par
  refine ⟨fun r => (regOfAddr_eq_ok_iff par _ r).2 rfl, fun a => ?_⟩
  simp only [regOfAddr_eq_ok_iff, Reg.addr]
  constructor
  · rintro ⟨r, rfl⟩
    have := Laws.EncodedForm.off_aligned r
    omega
  · rintro ⟨hbase, hend, haligned⟩
    obtain ⟨r, hr⟩ := (exists_off_toNat_eq_iff (a - par.base)).2 ⟨by omega, haligned⟩
    exact ⟨r, by omega⟩

end Sys2Proof.Machine

/-! SUPPORT. What is never taken back: the history, the faults, the refusal (10_state.md R30, R31). -/

namespace Sys2Proof.Machine

variable {s t : State} {i : Instr} {turn : Turn}

theorem ExecTo.prefix_events (h : ExecTo s i t) : s.events <+: t.events := by
  cases h with
  | hold | post | nop | delayNone | delayLast | delayMore => exact List.prefix_rfl
  | _ => exact List.prefix_append ..

theorem ExecTo.prefix_faults (h : ExecTo s i t) : s.faults <+: t.faults := by
  cases h with
  | read _ r | modify r => exact prefix_busRead_faults r s
  | write r v => exact prefix_performWrite_faults r v s
  | _ => exact List.prefix_rfl

/-- No step takes back an event, a fault or a refusal. -/
theorem StepTo.keeps_records (h : StepTo s turn t) :
    s.events <+: t.events ∧ s.faults <+: t.faults ∧ (s.refused ≠ none → t.refused ≠ none) := by
  cases h with
  | seqExec _ _ _ _ _ _ _ hx | portExec _ _ _ _ _ _ hx =>
    obtain ⟨-, -, hrefused, -⟩ := hx.frame
    exact ⟨hx.prefix_events, hx.prefix_faults, by rw [hrefused]; exact id⟩
  | bus r v rest _ =>
    exact ⟨List.prefix_append .., prefix_performWrite_faults r v { s with wbuf := rest }, id⟩
  | seqRefuse | portRefuse | hostRefuse => exact ⟨List.prefix_rfl, List.prefix_rfl, fun _ => nofun⟩
  | hostLog | hostReturn => exact ⟨List.prefix_append .., List.prefix_rfl, id⟩
  | _ => exact ⟨List.prefix_rfl, List.prefix_rfl, id⟩

/-- Settles O54: a step appends to the history and to the faults, and sets the refusal mark but never lifts it. -/
theorem recordsAreSticky : Obligations.RecordsAreSticky := by
  intro s t h
  obtain ⟨hevents, hfaults, hrefused⟩ := (step_to h).keeps_records
  obtain ⟨hpar, hlaunch⟩ := (step_to h).frame
  exact ⟨hevents, hfaults, hrefused, hlaunch, hpar⟩

end Sys2Proof.Machine

/-! SUPPORT. What changes a PLL's LOCK (10_state.md R19, 41_pll_lock_detector.md R101). -/

namespace Sys2Proof.Machine

variable {s t : State} {i : Instr} {turn : Turn}

/-- A performed write of cfg0(p) clears the LOCK of `p` (R92); no other write touches it. -/
theorem writeBlock_lock (r : Reg) (b : Block) (v : Word) (p : PllId) :
    ((writeBlock r b v).pll p).lock = if r = cfg0Reg p then false else (b.pll p).lock := by
  cases r <;> cases p <;> rfl

/-- A write that changes the LOCK of `p` is one of cfg0(p), and clears it. -/
theorem lock_cleared_of_writeBlock {r : Reg} {b : Block} {v : Word} {p : PllId}
    (h : ((writeBlock r b v).pll p).lock ≠ (b.pll p).lock) :
    r = cfg0Reg p ∧ ((writeBlock r b v).pll p).lock = false := by
  rw [writeBlock_lock] at h ⊢
  split at h
  · rename_i hr
    exact ⟨hr, if_pos hr⟩
  · exact absurd rfl h

/-- An instruction that changes the LOCK of `p` is a performed write of cfg0(p), and clears it. -/
theorem ExecTo.lock_cleared (h : ExecTo s i t) {p : PllId} (change : (t.block.pll p).lock ≠ (s.block.pll p).lock) :
    (t.block.pll p).lock = false ∧ ∃ v, t.events = s.events ++ [.write (cfg0Reg p) v] := by
  rcases h.block_cases with hb | hb | ⟨r, v, hb, he⟩ <;> rw [hb] at change
  · exact absurd rfl change
  · exact absurd (by cases p <;> rfl) change
  · obtain ⟨rfl, hlock⟩ := lock_cleared_of_writeBlock change
    exact ⟨by rw [hb, hlock], v, he⟩

/-- A step that changes the LOCK of `p` is its detector's, which sets it, or a performed write of cfg0(p), which clears
it. -/
theorem StepTo.lock_changed (h : StepTo s turn t) {p : PllId}
    (change : (t.block.pll p).lock ≠ (s.block.pll p).lock) :
    (turn = .pll p ∧ (t.block.pll p).lock = true) ∨
    ((t.block.pll p).lock = false ∧ ∃ v, t.events = s.events ++ [.write (cfg0Reg p) v]) := by
  cases h with
  | seqExec _ _ _ _ _ _ _ hx | portExec _ _ _ _ _ _ hx => exact .inr (hx.lock_cleared change)
  | bus r v rest _ =>
    obtain ⟨rfl, hlock⟩ := lock_cleared_of_writeBlock change
    exact .inr ⟨hlock, v, rfl⟩
  | pll p' _ _ =>
    by_cases hp : p = p'
    · subst hp
      exact .inl ⟨rfl, by simp⟩
    · exact absurd (congrArg Pll.lock (Block.pll_setPll_of_ne _ _ hp)) change
  | xtal | rstobs | ddrprop => exact absurd (by cases p <;> rfl) change
  | _ => exact absurd rfl change

/-- Settles O56: the detector only sets LOCK, and a performed write only clears it. -/
theorem lockChangesOnlyByDetectorOrWrite : Obligations.LockChangesOnlyByDetectorOrWrite := by
  intro s t p h
  have changed := (step_to h).lock_changed (p := p)
  refine ⟨fun clear set => ?_, fun set clear => ?_⟩
  · obtain ⟨hturn, -⟩ | ⟨hlock, -⟩ := changed (by simp [clear, set])
    · exact hturn
    · simp [set] at hlock
  · obtain ⟨-, hlock⟩ | ⟨-, v, he⟩ := changed (by simp [clear, set])
    · simp [clear] at hlock
    · refine ⟨v, ?_⟩
      cases p <;> exact he

end Sys2Proof.Machine

/-! SUPPORT. The hidden state of the reset domains, and what does not depend on it (10_state.md R38, 43_reset_control.md
R115, R125). -/

namespace Sys2Proof.Machine

/-- `s` with other observed lines and another state of propagation. -/
def State.withHidden (s : State) (o : Lines) (d : DdrProp) : State :=
  { s with block := { s.block with obs := o, ddrprop := d } }

@[simp] theorem State.withHidden_wbuf (s : State) (o : Lines) (d : DdrProp) : (s.withHidden o d).wbuf = s.wbuf := rfl
@[simp] theorem State.withHidden_seq (s : State) (o : Lines) (d : DdrProp) : (s.withHidden o d).seq = s.seq := rfl

@[simp] theorem wbufFull_withHidden (s : State) (o : Lines) (d : DdrProp) :
    wbufFull (s.withHidden o d) = wbufFull s := rfl

@[simp] theorem allObserved_withHidden (s : State) (d : DdrProp) :
    allObserved (s.withHidden s.block.obs d).block = allObserved s.block := rfl

/-- A read returns the lines, not what the sub-blocks have observed of them (R115). -/
theorem busRead_withHidden (r : Reg) (s : State) (o : Lines) (d : DdrProp) :
    busRead r (s.withHidden o d) = ((busRead r s).1, (busRead r s).2.withHidden o d) := by
  cases r <;> rfl

/-- No operation of the sequencer sees propagation, and none but FENCE what is observed: it does the same to everything
else. A retired no-op may move propagation on. -/
theorem exec_withHidden (s : State) {i : Instr} (o : Lines) (d : DdrProp) (hi : i.isSeq = true)
    (hfence : i = .fence → o = s.block.obs) :
    ∃ u d', exec i s = .next u ∧ exec i (s.withHidden o d) = .next (u.withHidden o d') := by
  cases i <;> try exact Bool.noConfusion hi
  case rd r =>
    simp only [exec, execRd, State.withHidden_wbuf, busRead_withHidden]
    split <;> exact ⟨_, d, rfl, rfl⟩
  case wr r v =>
    by_cases full : wbufFull s = true <;> simp only [exec, execWr, wbufFull_withHidden, full] <;>
      exact ⟨_, d, rfl, rfl⟩
  case modify r m v =>
    simp only [exec, execModify, State.withHidden_wbuf, wbufFull_withHidden, busRead_withHidden]
    split <;> exact ⟨_, d, rfl, rfl⟩
  case poll r m v =>
    simp only [exec, execPoll, State.withHidden_wbuf, busRead_withHidden]
    split
    · split
      · exact ⟨_, d, rfl, rfl⟩
      · exact ⟨_, d, rfl, rfl⟩
    · exact ⟨_, d, rfl, rfl⟩
  case fence =>
    rw [hfence rfl]
    by_cases ready : s.wbuf = [] ∧ allObserved s.block = true <;>
      simp only [exec, execFence, State.withHidden_wbuf, allObserved_withHidden, ready] <;> exact ⟨_, d, rfl, rfl⟩
  case nop => exact ⟨_, propNop s.par.resetPropNops d, rfl, rfl⟩
  case delay n =>
    simp only [exec, execDelay, State.withHidden_seq]
    split
    · exact ⟨_, d, rfl, rfl⟩
    · exact ⟨_, propNop s.par.resetPropNops d, rfl, rfl⟩
    · exact ⟨_, propNop s.par.resetPropNops d, rfl, rfl⟩
  case notify rate => exact ⟨_, d, rfl, rfl⟩
  case exitIfEmu => exact ⟨_, d, rfl, rfl⟩
  case ret => exact ⟨_, d, rfl, rfl⟩

/-- Settles O58: the run from the state with other hidden parts differs in these parts only. -/
theorem hiddenStateIsInvisibleToOperations : Obligations.HiddenStateIsInvisibleToOperations := by
  intro s i o d hi hfence
  obtain ⟨u, d', hu, hu'⟩ := exec_withHidden s o d hi hfence
  exact ⟨u, u.withHidden o d', hu, hu', rfl, rfl, rfl, rfl⟩

end Sys2Proof.Machine

/-! SUPPORT. The state after reset (10_state.md R39 to R44). -/

namespace Sys2Proof.Machine

theorem resetWith_ddrprop (par : Params) (launch : Launch) (d : ResetDraws) :
    (State.resetWith par launch d).block.ddrprop = if d.rst.ddrAll then .done else .idle := rfl

theorem blockInv_resetWith (par : Params) (launch : Launch) (d : ResetDraws) :
    blockInv par (State.resetWith par launch d).block := by
  refine ⟨fun _ => rfl, fun _ observed => observed, ?_, fun n hn => ?_⟩
  · rw [resetWith_ddrprop]
    change _ ↔ d.rst.ddrAll = false
    cases d.rst.ddrAll <;> simp
  · rw [resetWith_ddrprop] at hn
    split at hn <;> cases hn

theorem seqInv_resetWith (par : Params) (launch : Launch) (d : ResetDraws) : seqInv (State.resetWith par launch d) :=
  seqInv_of_noCount ⟨nofun, fun h => absurd rfl h⟩ nofun rfl

theorem faultsInv_resetWith (par : Params) (launch : Launch) (d : ResetDraws) :
    faultsInv (State.resetWith par launch d) :=
  ⟨fun _ hf => (List.not_mem_nil hf).elim, List.nodup_nil⟩

/-- After reset the sequencer does not run, so the program invariant asks only for a well-formed program. -/
theorem programInv_resetWith_iff (par : Params) (launch : Launch) (d : ResetDraws) :
    programInv (State.resetWith par launch d) ↔ ∃ is, checkProgram launch.program = .ok is :=
  and_iff_left nofun

/-- The firmware's program is well formed (R145). -/
theorem checkProgram_pInit : ∃ is, checkProgram pInit = .ok is := ⟨_, rfl⟩

/-- Settles O46: each field by its definition, and propagation by whether the DDR lines are all released. -/
theorem resetState : Obligations.ResetState := by
  refine ⟨fun par launch d => ?_, resetParams, firmwareLaunch, resetDraws, rfl⟩
  refine ⟨rfl, rfl, rfl, rfl, rfl, rfl, rfl, rfl, rfl, fun _ => rfl, ?_, rfl, rfl, rfl, rfl, rfl⟩
  simp [resetWith_ddrprop, Lines.ddrAll, and_assoc]

/-- Settles O47, one invariant at a time. -/
theorem resetMeetsInvariants : Obligations.ResetMeetsInvariants := fun par launch d =>
  ⟨blockInv_resetWith par launch d, Nat.zero_le _, seqInv_resetWith par launch d, faultsInv_resetWith par launch d,
    programInv_resetWith_iff par launch d, (programInv_resetWith_iff ..).2 checkProgram_pInit⟩

end Sys2Proof.Machine

/-! SUPPORT. BUS's turn: the oldest posted write is performed (20_memory.md R53). -/

namespace Sys2Proof.Machine

variable {s : State}

theorem step_of_turn_bus (h : turnOf s = .bus) : step s = busStep s.endTurn := by
  rw [step_eq, h]; rfl

theorem busStep_of_empty (h : s.wbuf = []) : busStep s = .next s := by
  simp [busStep, h]

theorem busStep_of_pending {r : Reg} {v : Word} {rest : List (Reg × Word)} (h : s.wbuf = (r, v) :: rest) :
    busStep s = exec (Instr.ofWrite r v) { s with wbuf := rest } := by
  simp [busStep, h]

/-- Settles O11: BUS's step is the write transaction of the oldest entry, and a write transaction is the performed write
of its word, which appends its event and posts nothing. -/
theorem busPerformsOldestWrite : Obligations.BusPerformsOldestWrite := by
  intro s hturn
  rw [step_of_turn_bus hturn]
  constructor
  · intro empty
    exact busStep_of_empty (s := s.endTurn) empty
  · intro r v rest pending
    rw [busStep_of_pending (s := s.endTurn) pending]
    exact ⟨performWrite r v { s.endTurn with wbuf := rest }, exec_ofWrite .., exec_ofWrite .., rfl, rfl⟩

end Sys2Proof.Machine

/-! SUPPORT. What the registers store, and what changes it (20_memory.md R50, R51; 40_register_access.md R82). -/

namespace Sys2Proof.Machine

/-- What the registers of `c` store is what those of `b` store. RDY, LOCK and the hidden state behind the registers may
differ. -/
def Block.SameStored (b c : Block) : Prop :=
  c.xtalEn = b.xtalEn ∧ c.sel = b.sel ∧ c.rst = b.rst ∧ c.oeDdr = b.oeDdr ∧ c.oeEth = b.oeEth ∧
    ∀ p, (c.pll p).word = (b.pll p).word

theorem Block.SameStored.refl (b : Block) : b.SameStored b := ⟨rfl, rfl, rfl, rfl, rfl, fun _ => rfl⟩

/-- A lock detector's step leaves the stored fields: LOCK is none of them (R19). -/
theorem Block.sameStored_setLock (b : Block) (p : PllId) (x : Bool) :
    b.SameStored (b.setPll p { b.pll p with lock := x }) := by
  refine ⟨by simp, by simp, by simp, by simp, by simp, fun q => ?_⟩
  by_cases hq : q = p
  · subst hq
    rw [Block.pll_setPll_self]
    rfl
  · rw [Block.pll_setPll_of_ne _ _ hq]

/-- What a sub-block observes, and the propagation it starts, is no stored field. -/
theorem Block.sameStored_observe (bound : Nat) (b : Block) (x : SubBlock) : b.SameStored (observe bound b x) :=
  .refl b

variable {s t : State} {i : Instr} {turn : Turn}

/-- An instruction that performs no write leaves the stored fields; a retired no-op moves only propagation. -/
theorem ExecTo.sameStored (h : ExecTo s i t) (noWrite : ∀ r v, t.events ≠ s.events ++ [.write r v]) :
    s.block.SameStored t.block := by
  rcases h.block_cases with hb | hb | ⟨r, v, -, he⟩
  · rw [hb]; exact .refl _
  · rw [hb]; exact .refl s.block
  · exact absurd he (noWrite r v)

/-- A step that performs no write leaves the stored fields. -/
theorem StepTo.sameStored (h : StepTo s turn t) (noWrite : ∀ r v, t.events ≠ s.events ++ [.write r v]) :
    s.block.SameStored t.block := by
  cases h with
  | seqExec _ _ _ _ _ _ _ hx | portExec _ _ _ _ _ _ hx => exact hx.sameStored noWrite
  | bus r v rest _ => exact absurd rfl (noWrite r v)
  | pll p _ _ => exact Block.sameStored_setLock s.block p true
  | rstobs x _ _ => exact Block.sameStored_observe _ s.block x
  | _ => exact .refl s.block

/-- Settles O57: the agents other than SEQ, BUS and the port change LOCK, RDY and hidden state only, and an instruction
changes what is stored only as a performed write. -/
theorem registersChangeOnlyByPerformedWrites : Obligations.RegistersChangeOnlyByPerformedWrites :=
  fun _ _ h noWrite => (step_to h).sameStored noWrite

end Sys2Proof.Machine

/-! SUPPORT. The fields of the encoded words, as bits and as numbers (30_encoding.md R71, R73). -/

namespace Sys2Proof.Machine

/-- A field as a number: what lies above its low bit, below its width. -/
theorem toNat_field {n : Nat} (x : BitVec n) (lo len : Nat) : (x.extractLsb' lo len).toNat = x.toNat / 2 ^ lo % 2 ^ len := by
  rw [BitVec.extractLsb'_toNat, Nat.shiftRight_eq_div_pow]

/-! ### The bus header -/

/-- A header is its four fields, WE at the top (R71). -/
theorem header_eq_append_fields (h : BitVec 16) :
    BitVec.ofBool (h.getLsbD 15) ++ h.extractLsb' 12 3 ++ h.extractLsb' 8 4 ++ h.extractLsb' 0 8 = h := by
  ext k hk
  simp only [BitVec.getElem_append, BitVec.getElem_extractLsb', BitVec.getElem_ofBool]
  split_ifs <;> (rw [← BitVec.getLsbD_eq_getElem]; congr 1; omega)

/-- A header of R72's form is the one the encoder writes. -/
theorem eq_busHeader_of_fields {h : BitVec 16} {r : Reg} (hz : h.extractLsb' 12 3 = 0#3)
    (hbe : h.extractLsb' 8 4 = 0xF#4) (hoff : h.extractLsb' 0 8 = r.off) : h = busHeader (h.getLsbD 15) r := by
  unfold busHeader
  rw [← hz, ← hbe, ← hoff, header_eq_append_fields]

theorem busHeader_fields (we : Bool) (r : Reg) :
    (busHeader we r).extractLsb' 12 3 = 0#3 ∧ (busHeader we r).extractLsb' 8 4 = 0xF#4 ∧
      (busHeader we r).extractLsb' 0 8 = r.off ∧ (busHeader we r).getLsbD 15 = we := by
  cases we <;> cases r <;> decide

/-- WE is the top bit. -/
theorem header_we_iff (h : BitVec 16) : h.getLsbD 15 = true ↔ 2 ^ 15 ≤ h.toNat := by
  rw [show h.getLsbD 15 = h.msb from rfl, BitVec.msb_eq_decide, decide_eq_true_iff]

/-! ### Word W0 -/

/-- A word is the W0 of its three fields. -/
theorem seqW0_fields (w : Word) : seqW0 (w.extractLsb' 24 8) (w.extractLsb' 16 8) (w.extractLsb' 0 16) = w := by
  apply BitVec.eq_of_toNat_eq
  rw [Laws.EncodedForm.seqW0_toNat, toNat_field, toNat_field, toNat_field]
  omega

@[simp] theorem seqW0_opc (opc off : BitVec 8) (aux : BitVec 16) : (seqW0 opc off aux).extractLsb' 24 8 = opc := by
  apply BitVec.eq_of_toNat_eq
  rw [toNat_field, Laws.EncodedForm.seqW0_toNat]
  omega

@[simp] theorem seqW0_off (opc off : BitVec 8) (aux : BitVec 16) : (seqW0 opc off aux).extractLsb' 16 8 = off := by
  apply BitVec.eq_of_toNat_eq
  rw [toNat_field, Laws.EncodedForm.seqW0_toNat]
  omega

@[simp] theorem seqW0_aux (opc off : BitVec 8) (aux : BitVec 16) : (seqW0 opc off aux).extractLsb' 0 16 = aux := by
  apply BitVec.eq_of_toNat_eq
  rw [toNat_field, Laws.EncodedForm.seqW0_toNat]
  omega

end Sys2Proof.Machine

/-! SUPPORT. The checks of an offset, and of the fields an operation does not use (30_encoding.md R72, R76). -/

namespace Sys2Proof.Machine

@[simp] theorem regOfOff_off (r : Reg) : regOfOff r.off = .ok r := (regOfOff_eq_ok_iff _ r).2 rfl

theorem regOfOff_of_misaligned {off : BitVec 8} (h : off.toNat % 4 ≠ 0) : regOfOff off = .error .misaligned :=
  if_pos h

/-- An aligned offset of no word is past the last one. -/
theorem regOfOff_of_outside {off : BitVec 8} (aligned : off.toNat % 4 = 0) (outside : 0x2C ≤ off.toNat) :
    regOfOff off = .error .offsetOutOfBlock := by
  unfold regOfOff
  rw [if_neg (not_not.2 aligned)]
  split
  case h_12 => rfl
  all_goals omega

/-- The two checks of an offset in their order (R72 steps 3 and 4), for a decoder whose answer is `x` where they fail and
satisfies `admitted` where they hold. -/
def OffsetChecked (off : Nat) (x : Except RefuseReason Instr) (admitted : Prop) : Prop :=
  if off % 4 ≠ 0 then x = .error .misaligned
  else if 0x2C ≤ off then x = .error .offsetOutOfBlock
  else admitted

/-- A decoder that passes on the refusals of `regOfOff` checks the offset in that order. -/
theorem offsetChecked_of_regOfOff {off : BitVec 8} {x : Except RefuseReason Instr} {admitted : Prop}
    (refuse : ∀ e, regOfOff off = .error e → x = .error e) (pass : ∀ r : Reg, off = r.off → admitted) :
    OffsetChecked off.toNat x admitted := by
  unfold OffsetChecked
  split_ifs with misaligned outside
  · exact refuse _ (regOfOff_of_misaligned misaligned)
  · exact refuse _ (regOfOff_of_outside (not_not.1 misaligned) outside)
  · obtain ⟨r, hr⟩ := (exists_off_toNat_eq_iff off.toNat).2 ⟨not_le.1 outside, not_not.1 misaligned⟩
    exact pass r (BitVec.eq_of_toNat_eq hr.symm)

@[simp] theorem withReg_off (r : Reg) (k : Reg → Instr) : withReg r.off k = .ok (k r) := by
  simp [withReg]

theorem withReg_of_error {off : BitVec 8} {e : RefuseReason} (h : regOfOff off = .error e) (k : Reg → Instr) :
    withReg off k = .error e := by
  simp [withReg, h]

theorem withReg_eq_ok_iff (off : BitVec 8) (k : Reg → Instr) (i : Instr) :
    withReg off k = .ok i ↔ ∃ r, off = r.off ∧ i = k r := by
  constructor
  · intro h
    unfold withReg at h
    split at h
    · cases h
    · rename_i r hr
      cases h
      exact ⟨r, (regOfOff_eq_ok_iff off r).1 hr, rfl⟩
  · rintro ⟨r, rfl, rfl⟩
    exact withReg_off r k

@[simp] theorem unusedZero_true (i : Except RefuseReason Instr) : unusedZero true i = i := rfl

@[simp] theorem unusedZero_false (i : Except RefuseReason Instr) : unusedZero false i = .error .badOperand := rfl

theorem unusedZero_eq_ok_iff (zero : Bool) (x : Except RefuseReason Instr) (i : Instr) :
    unusedZero zero x = .ok i ↔ zero = true ∧ x = .ok i := by
  cases zero <;> simp

end Sys2Proof.Machine

/-! SUPPORT. The bus format: what a header decodes to, and back (30_encoding.md R71, R72). -/

namespace Sys2Proof.Machine

@[simp] theorem encode_ofRead (r : Reg) : encode (.ofRead r) = .bus16 (busHeader false r) 0 := by cases r <;> rfl

@[simp] theorem encode_ofWrite (r : Reg) (v : Word) : encode (.ofWrite r v) = .bus16 (busHeader true r) v := by
  cases r <;> rfl

theorem decodeBus_of_descriptor {h : BitVec 16} (hz : h.extractLsb' 12 3 ≠ 0#3) (d : Word) :
    decodeBus h d = .error .badDescriptor := if_pos hz

theorem decodeBus_of_width {h : BitVec 16} (hz : h.extractLsb' 12 3 = 0#3) (hbe : h.extractLsb' 8 4 ≠ 0xF#4) (d : Word) :
    decodeBus h d = .error .badWidth := by
  rw [decodeBus, if_neg (not_not.2 hz), if_pos hbe]

/-- Once Z and BE hold, the offset decides. -/
theorem decodeBus_of_fields {h : BitVec 16} (hz : h.extractLsb' 12 3 = 0#3) (hbe : h.extractLsb' 8 4 = 0xF#4) (d : Word) :
    decodeBus h d = (regOfOff (h.extractLsb' 0 8)).map
      fun r => if h.getLsbD 15 then Instr.ofWrite r d else Instr.ofRead r := by
  rw [decodeBus, if_neg (not_not.2 hz), if_neg (not_not.2 hbe)]
  cases regOfOff (h.extractLsb' 0 8) <;> rfl

@[simp] theorem decodeBus_busHeader (we : Bool) (r : Reg) (d : Word) :
    decodeBus (busHeader we r) d = .ok (if we then Instr.ofWrite r d else Instr.ofRead r) := by
  obtain ⟨hz, hbe, hoff, hwe⟩ := busHeader_fields we r
  rw [decodeBus_of_fields hz hbe, hoff, hwe, regOfOff_off]
  rfl

/-- A header that decodes is the encoder's header of some word, with the direction of its WE bit. -/
theorem decodeBus_eq_ok_iff (h : BitVec 16) (d : Word) (i : Instr) :
    decodeBus h d = .ok i ↔ ∃ r, h = busHeader (h.getLsbD 15) r ∧
      i = if h.getLsbD 15 then Instr.ofWrite r d else Instr.ofRead r := by
  constructor
  · intro hd
    have hz : h.extractLsb' 12 3 = 0#3 := by
      by_contra bad
      cases (decodeBus_of_descriptor bad d).symm.trans hd
    have hbe : h.extractLsb' 8 4 = 0xF#4 := by
      by_contra bad
      cases (decodeBus_of_width hz bad d).symm.trans hd
    rw [decodeBus_of_fields hz hbe] at hd
    cases hr : regOfOff (h.extractLsb' 0 8) with
    | error e => rw [hr] at hd; cases hd
    | ok r =>
      rw [hr] at hd
      exact ⟨r, eq_busHeader_of_fields hz hbe ((regOfOff_eq_ok_iff _ r).1 hr), (Except.ok.inj hd).symm⟩
  · rintro ⟨r, hh, rfl⟩
    rw [hh, decodeBus_busHeader, ← hh]

/-- The words of a bus transaction decode to it. -/
theorem decode_encode_of_bus {i : Instr} (bus : i.isSeq = false) : decode (encode i) = .ok i := by
  rcases eq_ofRead_or_ofWrite bus with ⟨r, rfl⟩ | ⟨r, v, rfl⟩
  · rw [encode_ofRead]; exact decodeBus_busHeader false r 0
  · rw [encode_ofWrite]; exact decodeBus_busHeader true r v

/-- Settles O3: the fields the decoder extracts are the numbers of the statement, and the offset's own two checks are
those of `regOfOff`. -/
theorem busDecodeChecksInOrder : Obligations.BusDecodeChecksInOrder := by
  intro h d z be off
  have hz : h.extractLsb' 12 3 = 0#3 ↔ z = 0 := by
    rw [← BitVec.toNat_inj, toNat_field]; rfl
  have hbe : h.extractLsb' 8 4 = 0xF#4 ↔ be = 15 := by
    rw [← BitVec.toNat_inj, toNat_field]; rfl
  have hoff : (h.extractLsb' 0 8).toNat = off := by rw [toNat_field, pow_zero, Nat.div_one]; rfl
  by_cases bad : z ≠ 0
  · rw [if_pos bad]
    exact decodeBus_of_descriptor (mt hz.1 bad) d
  rw [if_neg bad]
  replace hz := hz.2 (not_not.1 bad)
  by_cases narrow : be ≠ 15
  · rw [if_pos narrow]
    exact decodeBus_of_width hz (mt hbe.1 narrow) d
  rw [if_neg narrow, decodeBus_of_fields hz (hbe.2 (not_not.1 narrow)), ← hoff]
  refine offsetChecked_of_regOfOff (fun e he => by rw [he]; rfl) fun r hr => ⟨r, by rw [hr], ?_⟩
  rw [hr, regOfOff_off]
  simp only [← header_we_iff]
  rfl

end Sys2Proof.Machine

/-! SUPPORT. The sequencer format: what three words decode to, and back (30_encoding.md R73 to R76). -/

namespace Sys2Proof.Machine

/-- The words of a sequencer operation decode to it: each code has one row, its unused fields are written as zero and
its offset is a word's own. Only the count of DELAY can fail to fit its field (R75). -/
theorem decode_encode_of_seq {i : Instr} (seq : i.isSeq = true) (wf : i.wf = true) : decode (encode i) = .ok i := by
  cases i with
  | rd r | wr r v | modify r m v | poll r m v => simp [encode, decode, decodeSeq]
  | delay n =>
    have fits : n < 65536 := of_decide_eq_true wf
    simp [encode, decode, decodeSeq, fits]
  | fence | nop | notify rate | exitIfEmu | ret => simp [encode, decode, decodeSeq]
  | _ => cases seq

/-- Settles O1: a bus transaction is the read or write of a word, whose header decodes by its fields; a sequencer
operation goes row by row. -/
theorem decodeInvertsEncode : Obligations.DecodeInvertsEncode := by
  intro i wf
  cases hi : i.isSeq
  · exact decode_encode_of_bus hi
  · exact decode_encode_of_seq hi wf

/-- The words that decode to an operation are the encoder's: the code selects the row, every field of the row is the
operand's, and every other field is zero. -/
theorem encode_of_decodeSeq {q : SeqWords} {i : Instr} (hd : decodeSeq q = .ok i) :
    i.wf = true ∧ i.isSeq = true ∧ encode i = .seq96 q := by
  obtain ⟨w0, m, v⟩ := q
  obtain ⟨opc, off, aux, rfl⟩ : ∃ opc off aux, w0 = seqW0 opc off aux := ⟨_, _, _, (seqW0_fields w0).symm⟩
  unfold decodeSeq at hd
  simp only [seqW0_opc, seqW0_off, seqW0_aux] at hd
  split at hd
  case h_11 => cases hd
  all_goals
    rename_i code
    obtain ⟨-, rfl⟩ := BitVec.toNat_eq_nat.1 code
    simp only [unusedZero_eq_ok_iff, withReg_eq_ok_iff, Bool.and_eq_true, beq_iff_eq] at hd
  case h_1 =>
    obtain ⟨⟨⟨rfl, rfl⟩, rfl⟩, r, rfl, rfl⟩ := hd
    exact ⟨rfl, rfl, rfl⟩
  case h_2 =>
    obtain ⟨⟨rfl, rfl⟩, r, rfl, rfl⟩ := hd
    exact ⟨rfl, rfl, rfl⟩
  case h_3 | h_4 =>
    obtain ⟨rfl, r, rfl, rfl⟩ := hd
    exact ⟨rfl, rfl, rfl⟩
  case h_7 =>
    obtain ⟨⟨⟨rfl, rfl⟩, rfl⟩, ⟨⟩⟩ := hd
    exact ⟨decide_eq_true aux.isLt, rfl, by simp [encode]⟩
  case h_8 =>
    obtain ⟨⟨⟨rfl, rfl⟩, rfl⟩, ⟨⟩⟩ := hd
    exact ⟨rfl, rfl, rfl⟩
  all_goals
    obtain ⟨⟨⟨⟨rfl, rfl⟩, rfl⟩, rfl⟩, ⟨⟩⟩ := hd
    exact ⟨rfl, rfl, rfl⟩

/-- Settles O2: on the bus the header is the encoder's, and its WE bit says whether the data word counts. -/
theorem wordsHaveOneMeaning : Obligations.WordsHaveOneMeaning := by
  refine ⟨fun _ _ => encode_of_decodeSeq, fun h d i hd => ⟨decodeBus_isSeq hd, ?_⟩⟩
  obtain ⟨r, hh, rfl⟩ := (decodeBus_eq_ok_iff h d i).1 hd
  simp only [← header_we_iff]
  cases hwe : h.getLsbD 15 <;> rw [hwe] at hh
  · exact (encode_ofRead r).trans (by rw [hh]; rfl)
  · exact (encode_ofWrite r d).trans (by rw [hh]; rfl)

/-- The checks that follow the code's, in their order: the unused fields, then the offset (R76, log 12). -/
def OperandsChecked (unused : Prop) [Decidable unused] (off : Nat) (x : Except RefuseReason Instr) : Prop :=
  if unused then x = .error .badOperand else OffsetChecked off x (∃ i, x = .ok i)

section Rows

variable {zero : Bool} {unused : Prop} [Decidable unused]

/-- `unusedZero` refuses before what it guards is looked at. -/
theorem operandsChecked_unusedZero (hz : zero = true ↔ ¬ unused) {off : Nat} {x : Except RefuseReason Instr}
    (hx : ¬ unused → OffsetChecked off x (∃ i, x = .ok i)) : OperandsChecked unused off (unusedZero zero x) := by
  unfold OperandsChecked
  split
  · rename_i bad
    rw [eq_false_of_ne_true fun h => hz.1 h bad, unusedZero_false]
  · rename_i good
    rw [hz.2 good, unusedZero_true]
    exact hx good

/-- The row of an operation on a register. -/
theorem operandsChecked_withReg (hz : zero = true ↔ ¬ unused) (off : BitVec 8) (k : Reg → Instr) :
    OperandsChecked unused off.toNat (unusedZero zero (withReg off k)) :=
  operandsChecked_unusedZero hz fun _ =>
    offsetChecked_of_regOfOff (fun _ he => withReg_of_error he k) fun r hr => ⟨k r, by rw [hr, withReg_off]⟩

/-- The row of an operation without a register, whose offset field is one of those that must be zero. -/
theorem operandsChecked_ok (hz : zero = true ↔ ¬ unused) {off : Nat} (hoff : ¬ unused → off = 0) (i : Instr) :
    OperandsChecked unused off (unusedZero zero (.ok i)) :=
  operandsChecked_unusedZero hz fun good => by
    rw [hoff good]
    exact ⟨i, rfl⟩

end Rows

/-- Some field that the row of code `opc` does not use is not zero: the table of R74 and R76. -/
abbrev UnusedFieldSet (opc off aux : Nat) (w1 w2 : Word) : Prop :=
  (4 < opc ∧ off ≠ 0) ∨ (opc ≠ 7 ∧ aux ≠ 0) ∨ (opc ≠ 3 ∧ opc ≠ 4 ∧ w1 ≠ 0) ∨
    (opc ≠ 2 ∧ opc ≠ 3 ∧ opc ≠ 4 ∧ opc ≠ 8 ∧ w2 ≠ 0)

section Fields

variable {q : SeqWords} {opc off aux : Nat} (hopc : (q.w0.extractLsb' 24 8).toNat = opc)
  (hoff : (q.w0.extractLsb' 16 8).toNat = off) (haux : (q.w0.extractLsb' 0 16).toNat = aux)
include hopc

theorem decodeSeq_of_reserved (reserved : opc = 0 ∨ 0x0A < opc) : decodeSeq q = .error .badOpcode := by
  simp only [decodeSeq, hopc]
  split
  case h_11 => rfl
  all_goals omega

include hoff haux

/-- A code of the map: its row's unused fields are those of the table, and its offset is checked after them. -/
theorem operandsChecked_decodeSeq (mapped : ¬ (opc = 0 ∨ 0x0A < opc)) :
    OperandsChecked (UnusedFieldSet opc off aux q.w1 q.w2) off (decodeSeq q) := by
  have off_zero : q.w0.extractLsb' 16 8 = 0#8 ↔ off = 0 := by rw [← BitVec.toNat_inj, hoff]; rfl
  have aux_zero : q.w0.extractLsb' 0 16 = 0#16 ↔ aux = 0 := by rw [← BitVec.toNat_inj, haux]; rfl
  simp only [decodeSeq, hopc]
  split
  case h_11 => simp only [imp_false] at *; omega
  case h_1 | h_2 | h_3 | h_4 =>
    rw [← hoff]
    exact operandsChecked_withReg (by simp [aux_zero, and_assoc]) _ _
  all_goals
    exact operandsChecked_ok (by simp [off_zero, aux_zero, and_assoc]) (by simp +contextual) _

end Fields

/-- Settles O4: the fields the decoder extracts are the numbers of the statement. -/
theorem sequencerDecodeRefusals : Obligations.SequencerDecodeRefusals := by
  intro q opc off aux unused
  have hopc : (q.w0.extractLsb' 24 8).toNat = opc := by
    have := q.w0.isLt
    rw [toNat_field]; omega
  have hoff : (q.w0.extractLsb' 16 8).toNat = off := toNat_field ..
  have haux : (q.w0.extractLsb' 0 16).toNat = aux := by rw [toNat_field, pow_zero, Nat.div_one]
  by_cases reserved : opc = 0 ∨ 0x0A < opc
  · rw [if_pos reserved]
    exact decodeSeq_of_reserved hopc reserved
  · rw [if_neg reserved]
    exact operandsChecked_decodeSeq hopc hoff haux reserved

end Sys2Proof.Machine

/-! SUPPORT. Words written out from the tables (30_encoding.md R71, R73; 45_sequencer.md R145). -/

namespace Sys2Proof.Machine

/-- Settles O5: eight closed words, evaluated. -/
theorem sampleWordsDecode : Obligations.SampleWordsDecode := by
  unfold Obligations.SampleWordsDecode
  decide

end Sys2Proof.Machine

/-! SUPPORT. The port's turn: the presented transaction runs (30_encoding.md R72; log 8). -/

namespace Sys2Proof.Machine

section Port

variable {s : State} {h : BitVec 16} {d : Word}

theorem step_of_turn_port (turn : turnOf s = .port h d) : step s = portStep h d s.endTurn := by
  rw [step_eq, turn]; rfl

theorem portStep_of_running (running : s.seq.status = .running) : portStep h d s = .next s := if_pos running

theorem portStep_of_error {e : RefuseReason} (idle : s.seq.status ≠ .running) (hd : decodeBus h d = .error e) :
    portStep h d s = .next (s.refuse e) := by
  simp [portStep, idle, hd]

theorem portStep_of_ok {i : Instr} (idle : s.seq.status ≠ .running) (hd : decodeBus h d = .ok i) :
    portStep h d s = exec i s := by
  simp [portStep, idle, hd]

end Port

/-- Settles O10: a turn of the port runs from the state with the turn used up, in which the sequencer is what it was. -/
theorem stepRunsPortTransaction : Obligations.StepRunsPortTransaction := by
  intro s h d turn
  rw [step_of_turn_port turn]
  exact ⟨fun _ idle hd => portStep_of_ok (s := s.endTurn) idle hd,
    fun _ idle hd => portStep_of_error (s := s.endTurn) idle hd,
    fun running => portStep_of_running (s := s.endTurn) running⟩

end Sys2Proof.Machine

/-! SUPPORT. What a transaction of the block does, in the form the statements about transactions have: a read transaction
from its word, a write transaction from its reasons and what it stores (20_memory.md R53, R54; 60_exceptions.md R161). -/

namespace Sys2Proof.Machine

variable {s t : State} {r : Reg}

theorem exec_ofRead_of_pending (pending : s.wbuf ≠ []) (r : Reg) : exec (Instr.ofRead r) s = .next s := by
  rw [exec_ofRead, readTxn_of_pending pending]

theorem exec_ofRead_of_empty (empty : s.wbuf = []) (r : Reg) : exec (Instr.ofRead r) s = .next (busRead r s).2 := by
  rw [exec_ofRead, readTxn_of_empty empty]

/-- The read transaction of a word that has no fault returns the word its register's rule assembles. -/
theorem readsAs_ofRead {fits : Block → Word → Word → Prop} (clean : readHazards r = [])
    (hw : ∀ b d, fits b d (readWord r b d)) : readsAs (Instr.ofRead r) r fits := by
  refine fun s => ⟨fun pending => exec_ofRead_of_pending pending r, fun empty => ⟨_, hw _ _, ?_⟩⟩
  rw [exec_ofRead_of_empty empty, busRead_eq, clean, raise_nil]

/-- Raising a list of reasons records exactly these reasons. -/
theorem raisedExactly_of_faults_eq {why : List HazardReason} {reasons : HazardReason → Prop} {v : Word}
    (hf : t.faults = (s.raise why r v).faults) (hwhy : ∀ h, h ∈ why ↔ reasons h) : raisedExactly reasons r v s t := by
  intro f
  rw [hf, mem_raise_faults, hwhy]

/-- A write transaction is described by what its register stores and by the reasons its word meets. -/
theorem writesAs_ofWrite {stores : Block → Block → Prop} {reasons : HazardReason → Prop} {v : Word}
    (hstores : stores s.block (writeBlock r s.block v))
    (hwhy : ∀ h, h ∈ writeHazards r s.par s.block v ↔ reasons h) :
    writesAs (Instr.ofWrite r v) r v s stores reasons :=
  ⟨performWrite r v s, exec_ofWrite r v s, hstores, raisedExactly_of_faults_eq rfl hwhy, rfl⟩

end Sys2Proof.Machine

/-! SUPPORT. The fields of a word that is put together from fields, bits and masked draws (00_scope.md R7, R8). -/

namespace Sys2Proof.Machine

/-- `getLsbD_bitAt` in the form to which `simp` brings a bit at a fixed position. -/
@[simp] theorem getElem_bitAt (b : Bool) {k j : Nat} (hk : k < 32) (hj : j < 32) :
    (bitAt b k)[j] = (b && decide (j = k)) := by
  rw [← BitVec.getLsbD_eq_getElem, getLsbD_bitAt b hk]

theorem extractLsb'_and_of_ones {m : Word} {lo len : Nat} (h : m.extractLsb' lo len = BitVec.allOnes len) (v : Word) :
    (v &&& m).extractLsb' lo len = v.extractLsb' lo len := by
  rw [BitVec.extractLsb'_and, h, BitVec.and_allOnes]

theorem extractLsb'_field_self {n : Nat} (x : BitVec n) {lo : Nat} (h : lo + n ≤ 32) :
    (x.setWidth 32 <<< lo).extractLsb' lo n = x := by
  apply BitVec.eq_of_getLsbD_eq
  intro i hi
  have hlt : lo + i < 32 := by omega
  simp [hi, hlt]

theorem extractLsb'_field_of_disjoint {n : Nat} (x : BitVec n) {k lo len : Nat}
    (h : lo + len ≤ k ∨ k + n ≤ lo) : (x.setWidth 32 <<< k).extractLsb' lo len = 0#len := by
  apply BitVec.eq_of_getLsbD_eq
  intro i hi
  rcases h with h | h
  · have below : lo + i < k := by omega
    simp [below]
  · have above : n ≤ lo + i - k := by omega
    simp [BitVec.getLsbD_of_ge x _ above]

theorem extractLsb'_bitAt_of_outside (b : Bool) {k lo len : Nat} (hk : k < 32) (h : k < lo ∨ lo + len ≤ k) :
    (bitAt b k).extractLsb' lo len = 0#len := by
  apply BitVec.eq_of_getLsbD_eq
  intro i hi
  have hne : lo + i ≠ k := by omega
  simp [getLsbD_bitAt b hk, hne]

end Sys2Proof.Machine

/-! SUPPORT. Crystal (40_register_access.md section 2): its two transactions and the step of XTAL. -/

namespace Sys2Proof.Machine

theorem crystalWord_en (b : Block) (d : Word) : (crystalWord b d).getLsbD 31 = b.xtalEn := by simp [crystalWord]

theorem crystalWord_rdy (b : Block) (d : Word) : (crystalWord b d).getLsbD 30 = b.xtalRdy := by simp [crystalWord]

/-- Below EN and RDY every bit is the draw's. -/
theorem getLsbD_crystalWord_of_lt (b : Block) (d : Word) {k : Nat} (hk : k < 30) :
    (crystalWord b d).getLsbD k = d.getLsbD k := by
  have mask : ∀ j < 30, (0x3FFFFFFF#32).getLsbD j = true := by decide
  have hen : k ≠ 31 := by omega
  have hrdy : k ≠ 30 := by omega
  simp [crystalWord, getLsbD_bitAt, mask k hk, hen, hrdy]

/-- Settles O19: a read transaction, and the bits of the word it assembles. -/
theorem readCrystal : Obligations.ReadCrystal :=
  ⟨fun d => decodeBus_busHeader false .crystal d,
    readsAs_ofRead (r := .crystal) rfl fun b d =>
      ⟨crystalWord_en b d, crystalWord_rdy b d, fun _ hk => getLsbD_crystalWord_of_lt b d hk⟩⟩

theorem mem_crystalHazards_iff (b : Block) (v : Word) (h : HazardReason) :
    h ∈ crystalHazards b v ↔ h = .xtalDisabledInUse ∧ b.xtalEn = true ∧ v.getLsbD 31 = false := by
  unfold crystalHazards
  split <;> simp_all

/-- RDY survives the write exactly if the written EN is 1 (R87). -/
theorem writeCrystal_eq (b : Block) (v : Word) :
    writeCrystal b v = { b with
      xtalEn := v.getLsbD 31, xtalRdy := if v.getLsbD 31 = true then b.xtalRdy else false } := by
  unfold writeCrystal
  cases v.getLsbD 31
  · rw [Bool.and_false]; rfl
  · rw [Bool.and_true]; rfl

/-- Settles O25: a write transaction, with what the register stores and the reason it meets. -/
theorem writeCrystal_holds : Obligations.WriteCrystal :=
  ⟨fun v => decodeBus_busHeader true .crystal v, fun s v =>
    writesAs_ofWrite (r := .crystal) (writeCrystal_eq s.block v) (mem_crystalHazards_iff s.block v)⟩

theorem step_of_turn_xtal {s : State} (turn : turnOf s = .xtal) : step s = .next (xtalStep s.endTurn) := by
  rw [step_eq, turn]; rfl

theorem xtalEnabled_iff (b : Block) : xtalEnabled b = true ↔ b.xtalEn = true ∧ b.xtalRdy = false := by
  simp [xtalEnabled]

/-- XTAL's step, whether or not it has one, as a change of RDY alone. -/
theorem xtalStep_eq (s : State) :
    xtalStep s = s.withBlock { s.block with
      xtalRdy := if s.block.xtalEn = true ∧ s.block.xtalRdy = false then true else s.block.xtalRdy } := by
  unfold xtalStep
  simp only [xtalEnabled_iff]
  split <;> rfl

/-- Settles O12: the step of XTAL from the state with the turn used up. -/
theorem crystalBecomesReady : Obligations.CrystalBecomesReady := by
  intro s turn
  rw [step_of_turn_xtal turn, xtalStep_eq]
  rfl

end Sys2Proof.Machine

/-! SUPPORT. The reserved words (40_register_access.md section 3). -/

namespace Sys2Proof.Machine

/-- The words that no register stands at (R88). -/
def reservedWords : List Reg := [.rsvd08, .rsvd14, .rsvd18]

section Reserved

variable {r : Reg} (reserved : r ∈ reservedWords)

include reserved

/-- The rules of a reserved word: a read returns the draw, a write changes nothing, and each has the one reason. -/
theorem rules_of_reserved :
    readHazards r = [.reservedAccess r] ∧ (∀ b d, readWord r b d = d) ∧
      (∀ par b v, writeHazards r par b v = [.reservedAccess r]) ∧ ∀ b v, writeBlock r b v = b := by
  simp only [reservedWords, List.mem_cons, List.not_mem_nil, or_false] at reserved
  rcases reserved with rfl | rfl | rfl <;> exact ⟨rfl, fun _ _ => rfl, fun _ _ _ => rfl, fun _ _ => rfl⟩

theorem exec_ofRead_of_reserved {s : State} (empty : s.wbuf = []) :
    ∃ t, exec (Instr.ofRead r) s = .next t ∧
      raisedExactly (· = .reservedAccess r) r (Config.freeWord s.draws) s t ∧
      t = { s with
        faults := t.faults, events := s.events ++ [.read r (Config.freeWord s.draws)], draws := s.draws + 1 } := by
  obtain ⟨hread, hword, -, -⟩ := rules_of_reserved reserved
  refine ⟨_, exec_ofRead_of_empty empty r, raisedExactly_of_faults_eq (why := readHazards r) ?_ ?_, ?_⟩
  · rw [busRead_eq, hword]
  · simp [hread]
  · rw [busRead_eq, hword]

theorem writesAs_of_reserved (s : State) (v : Word) :
    writesAs (Instr.ofWrite r v) r v s (fun b b' => b' = b) (· = .reservedAccess r) := by
  obtain ⟨-, -, hwrite, hblock⟩ := rules_of_reserved reserved
  exact writesAs_ofWrite (hblock ..) (by simp [hwrite])

end Reserved

/-- Settles O24: the headers and transactions listed are those of the three reserved words, which have one rule. -/
theorem reservedWordAccessFaults : Obligations.ReservedWordAccessFaults := by
  intro r hr hw ir iw h
  have named : r ∈ reservedWords ∧ hr = busHeader false r ∧ hw = busHeader true r ∧ ir = Instr.ofRead r ∧
      iw = Instr.ofWrite r := by
    simp only [List.mem_cons, List.not_mem_nil, or_false, Prod.mk.injEq] at h
    rcases h with ⟨rfl, rfl, rfl, rfl, rfl⟩ | ⟨rfl, rfl, rfl, rfl, rfl⟩ | ⟨rfl, rfl, rfl, rfl, rfl⟩ <;>
      exact ⟨by decide, rfl, rfl, rfl, rfl⟩
  obtain ⟨reserved, rfl, rfl, rfl, rfl⟩ := named
  exact ⟨fun d => ⟨decodeBus_busHeader false r d, decodeBus_busHeader true r d⟩, fun s =>
    ⟨fun pending => exec_ofRead_of_pending pending r, exec_ofRead_of_reserved reserved, writesAs_of_reserved reserved s⟩⟩

end Sys2Proof.Machine

/-! SUPPORT. The bits of a written word that count (40_register_access.md R82, R90; 30_encoding.md R65 to R69). -/

namespace Sys2Proof.Machine

/-- The read-write bits of a register's word; a reserved word has none. -/
def rwMask : Reg → Word
  | .crystal => 0x80000000#32
  | .corepll | .ddrpll0 | .ethpll0 => 0x031FFFFF#32
  | .ddrpll1 | .ethpll1 => 0x81000000#32
  | .clksel => 0x00000001#32
  | .rstctl => 0x0000002F#32
  | .rsvd08 | .rsvd14 | .rsvd18 => 0x00000000#32

theorem pllOfWord_and_mask (v : Word) : pllOfWord (v &&& 0x031FFFFF#32) = pllOfWord v := by
  have hdivr := extractLsb'_and_of_ones (m := 0x031FFFFF#32) (lo := 0) (len := 6) rfl v
  have hdivf := extractLsb'_and_of_ones (m := 0x031FFFFF#32) (lo := 6) (len := 9) rfl v
  have hdivq := extractLsb'_and_of_ones (m := 0x031FFFFF#32) (lo := 15) (len := 3) rfl v
  have hrange := extractLsb'_and_of_ones (m := 0x031FFFFF#32) (lo := 18) (len := 3) rfl v
  simp [pllOfWord, hdivr, hdivf, hdivq, hrange]

theorem oeBitsOfWord_and_mask (v : Word) : oeBitsOfWord (v &&& 0x81000000#32) = oeBitsOfWord v := by
  simp [oeBitsOfWord]

theorem linesOfWord_and_mask (v : Word) : linesOfWord (v &&& 0x0000002F#32) = linesOfWord v := by
  simp [linesOfWord]

/-- What a write stores depends on the read-write bits only. -/
theorem writeBlock_and_rwMask (r : Reg) (b : Block) (v : Word) : writeBlock r b (v &&& rwMask r) = writeBlock r b v := by
  cases r with
  | crystal => simp [writeBlock, writeCrystal, rwMask]
  | corepll | ddrpll0 | ethpll0 => simp only [writeBlock, rwMask, pllOfWord_and_mask]
  | ddrpll1 | ethpll1 => simp only [writeBlock, rwMask, oeBitsOfWord_and_mask]
  | clksel => simp [writeBlock, writeClksel, rwMask]
  | rstctl => simp only [writeBlock, writeRstctl, rwMask, linesOfWord_and_mask]
  | rsvd08 | rsvd14 | rsvd18 => rfl

/-- The reasons that a write meets depend on the read-write bits only. -/
theorem writeHazards_and_rwMask (r : Reg) (par : Params) (b : Block) (v : Word) :
    writeHazards r par b (v &&& rwMask r) = writeHazards r par b v := by
  cases r with
  | crystal => simp [writeHazards, crystalHazards, rwMask]
  | ddrpll1 | ethpll1 => simp only [writeHazards, cfg1Hazards, rwMask, oeBitsOfWord_and_mask]
  | clksel => simp [writeHazards, clkselHazards, rwMask]
  | rstctl => simp only [writeHazards, rstctlHazards, rwMask, linesOfWord_and_mask]
  | corepll | ddrpll0 | ethpll0 | rsvd08 | rsvd14 | rsvd18 => rfl

/-- After a performed write there are records for the reasons that had one before it and for those it meets. -/
theorem exists_reason_performWrite_iff (r : Reg) (v : Word) (s : State) (h : HazardReason) :
    (∃ f ∈ (performWrite r v s).faults, f.reason = h) ↔
      (∃ f ∈ s.faults, f.reason = h) ∨ h ∈ writeHazards r s.par s.block v := by
  simp only [performWrite_eq, mem_raise_faults]
  constructor
  · rintro ⟨f, hf | ⟨-, -, -, hwhy⟩, rfl⟩
    · exact .inl ⟨f, hf, rfl⟩
    · exact .inr hwhy
  · rintro (⟨f, hf, rfl⟩ | hwhy)
    · exact ⟨f, .inl hf, rfl⟩
    · exact ⟨⟨h, r, v, s.events.length⟩, .inr ⟨rfl, rfl, rfl, hwhy⟩, rfl⟩

/-- Settles O31: what is stored and the reasons met are those of the word cut down to its read-write bits. -/
theorem ignoredBitsOfAWriteDoNotMatter : Obligations.IgnoredBitsOfAWriteDoNotMatter := by
  intro s r v v' mask same
  have agree : v &&& rwMask r = v' &&& rwMask r := same
  refine ⟨_, _, exec_ofWrite r v s, exec_ofWrite r v' s, ?_, fun h => ?_⟩
  · change writeBlock r s.block v = writeBlock r s.block v'
    rw [← writeBlock_and_rwMask, agree, writeBlock_and_rwMask]
  · rw [exists_reason_performWrite_iff, exists_reason_performWrite_iff, ← writeHazards_and_rwMask, agree,
      writeHazards_and_rwMask]

end Sys2Proof.Machine

/-! SUPPORT. The word a read assembles, written back (40_register_access.md R81, R82): each register takes from it what it
stores. -/

namespace Sys2Proof.Machine

/-- The word of a cfg0 read as fields, each at its position. -/
theorem cfg0Word_eq_fields (P : Pll) (d : Word) :
    cfg0Word P d = P.divr.setWidth 32 <<< 0 ||| P.divf.setWidth 32 <<< 6 ||| P.divq.setWidth 32 <<< 15 |||
      P.range.setWidth 32 <<< 18 ||| bitAt P.bypass 24 ||| bitAt P.fse 25 ||| bitAt (lockRead P d) 31 |||
      (d &&& 0x7C000000#32) ||| (d &&& 0x00E00000#32) := by
  rw [BitVec.shiftLeft_zero]; rfl

/-- A cfg0 write of the word read stores the fields again, and clears LOCK (R92). -/
theorem pllOfWord_cfg0Word (P : Pll) (d : Word) : pllOfWord (cfg0Word P d) = { P with lock := false } := by
  simp [pllOfWord, cfg0Word_eq_fields, BitVec.extractLsb'_or, BitVec.extractLsb'_and, extractLsb'_field_self,
    extractLsb'_field_of_disjoint, extractLsb'_bitAt_of_outside, -BitVec.shiftLeft_zero]

theorem oeBitsOfWord_cfg1Word (x : OeBits) (d : Word) : oeBitsOfWord (cfg1Word x d) = x := by
  simp [oeBitsOfWord, cfg1Word]

theorem linesOfWord_rstctlWord (b : Block) (d : Word) : linesOfWord (rstctlWord b d) = b.rst := by
  simp [linesOfWord, rstctlWord, Lines.word]

/-- A ready crystal is enabled, so RDY survives the write back (R87). -/
theorem writeCrystal_crystalWord {par : Params} {b : Block} (inv : blockInv par b) (d : Word) :
    writeCrystal b (crystalWord b d) = b := by
  obtain ⟨ready, -⟩ := inv
  have hrdy : (b.xtalRdy && b.xtalEn) = b.xtalRdy := Bool.and_eq_left_iff_imp.2 ready
  rw [writeCrystal, crystalWord_en, hrdy]

theorem writeClksel_clkselWord (b : Block) (d : Word) : writeClksel b (clkselWord b d) = b := by
  simp [writeClksel, clkselWord]

/-- Only released lines are observed, and propagation is idle while a DDR line is asserted: the write back leaves both
(R118, R119). -/
theorem writeRstctl_rstctlWord {par : Params} {b : Block} (inv : blockInv par b) (d : Word) :
    writeRstctl b (rstctlWord b d) = b := by
  obtain ⟨-, hobs, hidle, -⟩ := inv
  have obs : (writeRstctl b (rstctlWord b d)).obs = b.obs := by
    refine Lines.ext_get fun x => ?_
    rw [writeRstctl_obs_get, linesOfWord_rstctlWord]
    exact Bool.and_eq_left_iff_imp.2 (hobs x)
  have released : b.obs.ddrAll = true → b.rst.ddrAll = true := by
    simp only [Lines.ddrAll_iff]
    exact fun seen x hx => hobs x (seen x hx)
  have ddrprop : (writeRstctl b (rstctlWord b d)).ddrprop = b.ddrprop := by
    rw [writeRstctl_ddrprop, linesOfWord_rstctlWord]
    split
    · rfl
    · rename_i asserted
      exact (hidle.2 (Bool.eq_false_iff.2 (mt released asserted))).symm
  calc writeRstctl b (rstctlWord b d)
      = { b with
          rst := linesOfWord (rstctlWord b d)
          obs := (writeRstctl b (rstctlWord b d)).obs
          ddrprop := (writeRstctl b (rstctlWord b d)).ddrprop } := rfl
    _ = b := by rw [linesOfWord_rstctlWord, obs, ddrprop]

/-- Settles O32: a read leaves the block, and the register takes back from the word read what it stored. -/
theorem writeBackOfReadWordKeepsRegister : Obligations.WriteBackOfReadWordKeepsRegister := by
  intro s r empty inv h08 h14 h18
  refine ⟨_, _, _, exec_ofRead_of_empty empty r, rfl, exec_ofWrite .., ?_⟩
  change writeBlock r s.block (readWord r s.block (Config.freeWord s.draws)) = _
  cases r with
  | crystal => exact writeCrystal_crystalWord inv _
  | corepll => exact congrArg (s.block.setPll .core) (pllOfWord_cfg0Word ..)
  | ddrpll0 => exact congrArg (s.block.setPll .ddr) (pllOfWord_cfg0Word ..)
  | ethpll0 => exact congrArg (s.block.setPll .eth) (pllOfWord_cfg0Word ..)
  | ddrpll1 => exact congrArg (s.block.setOeBits .ddr) (oeBitsOfWord_cfg1Word ..)
  | ethpll1 => exact congrArg (s.block.setOeBits .eth) (oeBitsOfWord_cfg1Word ..)
  | clksel => exact writeClksel_clkselWord s.block _
  | rstctl => exact writeRstctl_rstctlWord inv _
  | rsvd08 => exact absurd rfl h08
  | rsvd14 => exact absurd rfl h14
  | rsvd18 => exact absurd rfl h18

end Sys2Proof.Machine

/-! SUPPORT. The two PLL words as a read assembles them (41_pll_lock_detector.md R91, R98, R99): the stored fields at their
positions, LOCK, and the draw's bits. -/

namespace Sys2Proof.Machine

/-- Below a word, a draw under two masks: a bit that one of the masks lets through is the word's or the draw's. -/
theorem getLsbD_or_masked {m n : Word} {k : Nat} (through : (m.getLsbD k || n.getLsbD k) = true) (w d : Word) :
    (w ||| (d &&& m) ||| (d &&& n)).getLsbD k = (w.getLsbD k || d.getLsbD k) := by
  rw [BitVec.getLsbD_or, BitVec.getLsbD_or, BitVec.getLsbD_and, BitVec.getLsbD_and, Bool.or_assoc,
    ← Bool.and_or_distrib_left, through, Bool.and_true]

/-! ### cfg0 -/

/-- The numeric fields that a cfg0 word stores, as numbers of the word (30_encoding.md R66). -/
theorem pllOfWord_toNat_fields (v : Word) :
    (pllOfWord v).divr.toNat = v.toNat % 64 ∧ (pllOfWord v).divf.toNat = v.toNat / 64 % 512 ∧
      (pllOfWord v).divq.toNat = v.toNat / 2 ^ 15 % 8 ∧ (pllOfWord v).range.toNat = v.toNat / 2 ^ 18 % 8 :=
  ⟨by simp [pllOfWord], toNat_field v 6 9, toNat_field v 15 3, toNat_field v 18 3⟩

theorem cfg0Word_toNat_fields (P : Pll) (d : Word) :
    (cfg0Word P d).toNat % 64 = P.divr.toNat ∧ (cfg0Word P d).toNat / 64 % 512 = P.divf.toNat ∧
      (cfg0Word P d).toNat / 2 ^ 15 % 8 = P.divq.toNat ∧ (cfg0Word P d).toNat / 2 ^ 18 % 8 = P.range.toNat := by
  obtain ⟨hdivr, hdivf, hdivq, hrange⟩ := pllOfWord_toNat_fields (cfg0Word P d)
  rw [pllOfWord_cfg0Word] at hdivr hdivf hdivq hrange
  exact ⟨hdivr.symm, hdivf.symm, hdivq.symm, hrange.symm⟩

theorem cfg0Word_bypass (P : Pll) (d : Word) : (cfg0Word P d).getLsbD 24 = P.bypass :=
  congrArg Pll.bypass (pllOfWord_cfg0Word P d)

theorem cfg0Word_fse (P : Pll) (d : Word) : (cfg0Word P d).getLsbD 25 = P.fse :=
  congrArg Pll.fse (pllOfWord_cfg0Word P d)

/-- The stored fields leave the reserved bits and LOCK's bit at 0. -/
theorem Pll.getLsbD_word_of_reserved (P : Pll) {k : Nat} (hk : (21 ≤ k ∧ k ≤ 23) ∨ 26 ≤ k) :
    P.word.getLsbD k = false := by
  have hbypass : k ≠ 24 := by omega
  have hfse : k ≠ 25 := by omega
  have hdivr : P.divr.getLsbD k = false := BitVec.getLsbD_of_ge _ _ (by omega)
  have hdivf : P.divf.getLsbD (k - 6) = false := BitVec.getLsbD_of_ge _ _ (by omega)
  have hdivq : P.divq.getLsbD (k - 15) = false := BitVec.getLsbD_of_ge _ _ (by omega)
  have hrange : P.range.getLsbD (k - 18) = false := BitVec.getLsbD_of_ge _ _ (by omega)
  simp [Pll.word, pllWord, getLsbD_bitAt, hbypass, hfse, hdivr, hdivf, hdivq, hrange]

/-- Bit 31 of a cfg0 word is LOCK, or in bypass the draw's bit (R99). -/
theorem cfg0Word_lock (P : Pll) (d : Word) :
    (cfg0Word P d).getLsbD 31 = if P.bypass = true then d.getLsbD 31 else P.lock := by
  rw [cfg0Word, BitVec.getLsbD_or, BitVec.getLsbD_or, BitVec.getLsbD_or, P.getLsbD_word_of_reserved (by omega)]
  simp [lockRead]

/-- The reserved bits of a cfg0 word are the draw's. -/
theorem getLsbD_cfg0Word_of_reserved (P : Pll) (d : Word) {k : Nat}
    (hk : (21 ≤ k ∧ k ≤ 23) ∨ (26 ≤ k ∧ k ≤ 30)) : (cfg0Word P d).getLsbD k = d.getLsbD k := by
  have masks : ∀ j < 31, (21 ≤ j ∧ j ≤ 23) ∨ (26 ≤ j ∧ j ≤ 30) →
      ((0x7C000000#32).getLsbD j || (0x00E00000#32).getLsbD j) = true := by decide
  have hlock : k ≠ 31 := by omega
  rw [cfg0Word, getLsbD_or_masked (masks k (by omega) hk), BitVec.getLsbD_or, P.getLsbD_word_of_reserved (by omega),
    getLsbD_bitAt _ (by omega)]
  simp [hlock]

/-- Settles O20: three read transactions, and the fields and bits of the word that each assembles. -/
theorem readPllConfig : Obligations.ReadPllConfig := by
  unfold Obligations.ReadPllConfig
  intro fits
  have fits_cfg0Word : ∀ P d, fits P d (cfg0Word P d) := fun P d =>
    have ⟨hdivr, hdivf, hdivq, hrange⟩ := cfg0Word_toNat_fields P d
    ⟨hdivr, hdivf, hdivq, hrange, cfg0Word_bypass P d, cfg0Word_fse P d, cfg0Word_lock P d,
      fun _ hk => getLsbD_cfg0Word_of_reserved P d hk⟩
  exact ⟨fun d => ⟨decodeBus_busHeader false .corepll d, decodeBus_busHeader false .ddrpll0 d,
      decodeBus_busHeader false .ethpll0 d⟩,
    readsAs_ofRead (r := .corepll) rfl fun b d => fits_cfg0Word b.core d,
    readsAs_ofRead (r := .ddrpll0) rfl fun b d => fits_cfg0Word b.ddr d,
    readsAs_ofRead (r := .ethpll0) rfl fun b d => fits_cfg0Word b.eth d⟩

/-! ### cfg1 -/

/-- Every bit of a cfg1 word but the two stored ones is the draw's. -/
theorem getLsbD_cfg1Word_of_reserved (x : OeBits) (d : Word) {k : Nat} (hk : k < 31) (h24 : k ≠ 24) :
    (cfg1Word x d).getLsbD k = d.getLsbD k := by
  have masks : ∀ j < 31, j ≠ 24 → ((0x7E000000#32).getLsbD j || (0x00FFFFFF#32).getLsbD j) = true := by decide
  have h31 : k ≠ 31 := by omega
  rw [cfg1Word, getLsbD_or_masked (masks k hk h24), BitVec.getLsbD_or, getLsbD_bitAt _ (by omega),
    getLsbD_bitAt _ (by omega)]
  simp [h31, h24]

/-- Settles O21: two read transactions, and the bits of the word that each assembles. -/
theorem readOutputEnable : Obligations.ReadOutputEnable := by
  unfold Obligations.ReadOutputEnable
  intro fits
  have fits_cfg1Word : ∀ x d, fits x d (cfg1Word x d) := fun x d =>
    have stored := oeBitsOfWord_cfg1Word x d
    ⟨congrArg OeBits.b31 stored, congrArg OeBits.b24 stored, fun _ hk h24 => getLsbD_cfg1Word_of_reserved x d hk h24⟩
  exact ⟨fun d => ⟨decodeBus_busHeader false .ddrpll1 d, decodeBus_busHeader false .ethpll1 d⟩,
    readsAs_ofRead (r := .ddrpll1) rfl fun b d => fits_cfg1Word b.oeDdr d,
    readsAs_ofRead (r := .ethpll1) rfl fun b d => fits_cfg1Word b.oeEth d⟩

end Sys2Proof.Machine

/-! SUPPORT. The writes of the PLL words (41_pll_lock_detector.md R92, R94, R95, R102, R103; 42_clock_mux.md R110): what they
store, and when each reason of theirs is met. -/

namespace Sys2Proof.Machine

/-! ### Dependent sub-blocks and the enable bit -/

theorem mem_deps_ddr_iff (x : SubBlock) : x ∈ deps .ddr ↔ x ≠ .eth := by cases x <;> decide

theorem depsActive_iff (b : Block) (p : OePll) :
    depsActive b p = true ↔ ∃ x ∈ deps p, b.rst.get x = true ∨ b.obs.get x = true := by
  simp [depsActive]

theorem depsActive_ddr_iff (b : Block) :
    depsActive b .ddr = true ↔ ∃ x, x ≠ .eth ∧ (b.rst.get x = true ∨ b.obs.get x = true) := by
  simp only [depsActive_iff, mem_deps_ddr_iff]

theorem depsActive_eth_iff (b : Block) : depsActive b .eth = true ↔ b.rst.eth = true ∨ b.obs.eth = true := by
  simp [depsActive_iff, deps, Lines.get]

/-- The stored bit at an enable position is the word's bit there (R102). -/
theorem oeBitsOfWord_get (v : Word) (c : CkeBit) : (oeBitsOfWord v).get c = v.getLsbD c.num := by cases c <;> rfl

/-- A write of cfg1(p) makes the output enable the word's bit at the enable position (10_state.md R21). -/
theorem oe_setOeBits_oeBitsOfWord (par : Params) (b : Block) (p : OePll) (v : Word) :
    oe par (b.setOeBits p (oeBitsOfWord v)) p = v.getLsbD (ckeBit par p).num := by
  rw [oe, Block.oeBits_setOeBits_self, oeBitsOfWord_get]

theorem stable_eq_false_iff (P : Pll) : P.stable = false ↔ P.bypass = false ∧ P.lock = false := by
  simp [Pll.stable]

/-! ### The reasons -/

theorem mem_coreHazards_iff (b : Block) (h : HazardReason) :
    h ∈ coreHazards b ↔ h = .coreReconfigWhileSelected ∧ b.sel = false := by
  cases hs : b.sel <;> simp [coreHazards, hs]

theorem mem_activeHazards_iff (b : Block) (p : OePll) (h : HazardReason) :
    h ∈ activeHazards b p ↔ h = .reconfigWhileActive p ∧ depsActive b p = true := by
  rw [activeHazards, List.mem_ite_nil_right, List.mem_singleton, and_comm]

theorem mem_cfg0Hazards_iff (par : Params) (b : Block) (p : OePll) (h : HazardReason) :
    h ∈ cfg0Hazards par b p ↔ (h = .reconfigWhileActive p ∧ depsActive b p = true) ∨
      (h = .reconfigWhileOutputEnabled p ∧ oe par b p = true) := by
  rw [cfg0Hazards, List.mem_append, mem_activeHazards_iff, List.mem_ite_nil_right, List.mem_singleton,
    and_comm (a := oe par b p = true)]

theorem mem_cfg1Hazards_iff (par : Params) (b : Block) (p : OePll) (v : Word) (h : HazardReason) :
    h ∈ cfg1Hazards par b p v ↔ (h = .reconfigWhileActive p ∧ depsActive b p = true) ∨
      (h = .outputEnabledUnlocked p ∧ v.getLsbD (ckeBit par p).num = true ∧
        (b.pll p.pll).bypass = false ∧ (b.pll p.pll).lock = false) := by
  rw [cfg1Hazards, List.mem_append, mem_activeHazards_iff, List.mem_ite_nil_right, List.mem_singleton, oeBitsOfWord_get,
    Bool.and_eq_true, Bool.not_eq_true', stable_eq_false_iff, and_comm (b := h = _)]

/-! ### The transactions -/

/-- Settles O26: three write transactions that store the fields of the word, each with the reasons of its PLL. -/
theorem writePllConfig : Obligations.WritePllConfig := by
  unfold Obligations.WritePllConfig
  intro stored
  have stored_pllOfWord : ∀ v, stored v (pllOfWord v) := fun v =>
    have ⟨hdivr, hdivf, hdivq, hrange⟩ := pllOfWord_toNat_fields v
    ⟨hdivr, hdivf, hdivq, hrange, rfl, rfl, rfl⟩
  refine ⟨fun v => ⟨decodeBus_busHeader true .corepll v, decodeBus_busHeader true .ddrpll0 v,
    decodeBus_busHeader true .ethpll0 v⟩, fun s v => ⟨?core, ?ddr, ?eth⟩⟩
  case core => exact writesAs_ofWrite (r := .corepll) ⟨stored_pllOfWord v, rfl⟩ (mem_coreHazards_iff s.block)
  case ddr =>
    refine writesAs_ofWrite (r := .ddrpll0) ⟨stored_pllOfWord v, rfl⟩ fun h => ?_
    rw [← depsActive_ddr_iff]
    exact mem_cfg0Hazards_iff s.par s.block .ddr h
  case eth =>
    refine writesAs_ofWrite (r := .ethpll0) ⟨stored_pllOfWord v, rfl⟩ fun h => ?_
    rw [← depsActive_eth_iff]
    exact mem_cfg0Hazards_iff s.par s.block .eth h

/-- Settles O27: two write transactions that store the enable bits of the word, each with the reasons of its PLL. -/
theorem writeOutputEnable : Obligations.WriteOutputEnable := by
  refine ⟨fun v => ⟨decodeBus_busHeader true .ddrpll1 v, decodeBus_busHeader true .ethpll1 v⟩,
    fun s v => ⟨?ddr, ?eth⟩⟩
  case ddr =>
    refine writesAs_ofWrite (r := .ddrpll1) ⟨rfl, oe_setOeBits_oeBitsOfWord s.par s.block .ddr v⟩ fun h => ?_
    rw [← depsActive_ddr_iff]
    exact mem_cfg1Hazards_iff s.par s.block .ddr v h
  case eth =>
    refine writesAs_ofWrite (r := .ethpll1) ⟨rfl, oe_setOeBits_oeBitsOfWord s.par s.block .eth v⟩ fun h => ?_
    rw [← depsActive_eth_iff]
    exact mem_cfg1Hazards_iff s.par s.block .eth v h

end Sys2Proof.Machine

/-! SUPPORT. The step of a PLL's lock detector (41_pll_lock_detector.md R93, R96, R100, R106). -/

namespace Sys2Proof.Machine

variable {s : State} {p : PllId}

theorem preset_words :
    preset .core = 0x02110EC0#32 ∧ preset .ddr = 0x02110DC0#32 ∧ preset .eth = 0x02128EC0#32 := by decide

/-- Each PLL can lock with its own preset (R106). -/
theorem pllCanLock_preset (p : PllId) : pllCanLock p (pllOfWord (preset p)).lockCfg = true := by simp [pllCanLock]

theorem step_of_turn_pll (turn : turnOf s = .pll p) : step s = .next (pllStep p s.endTurn) := by
  rw [step_eq, turn]; rfl

theorem pllEnabled_iff (p : PllId) (b : Block) :
    pllEnabled p b = true ↔ (b.pll p).lock = false ∧ (b.pll p).bypass = false ∧ b.xtalRdy = true ∧
      pllCanLock p (b.pll p).lockCfg = true := by
  simp [pllEnabled, and_assoc]

theorem pllStep_of_enabled (go : pllEnabled p s.block = true) :
    pllStep p s = s.withBlock (s.block.setPll p { s.block.pll p with lock := true }) := if_pos go

theorem pllStep_of_not_enabled (stay : ¬ pllEnabled p s.block = true) : pllStep p s = s := if_neg stay

theorem output_of_unlocked {P : Pll} (unlocked : P.lock = false) (plain : P.bypass = false) : P.output = .glitching := by
  simp [Pll.output, unlocked, plain]

theorem output_of_locked {P : Pll} (locked : P.lock = true) (plain : P.bypass = false) : P.output = .multiplied := by
  simp [Pll.output, locked, plain]

/-- Settles O13: the detector's step from the state with the turn used up, and the output before and after it. -/
theorem pllLocksWhenEnabled : Obligations.PllLocksWhenEnabled := by
  refine ⟨fun p => ?_, fun s p turn => ?_⟩
  · obtain ⟨hcore, hddr, heth⟩ := preset_words
    cases p with
    | core => exact hcore ▸ pllCanLock_preset .core
    | ddr => exact hddr ▸ pllCanLock_preset .ddr
    | eth => exact heth ▸ pllCanLock_preset .eth
  · have enabled := pllEnabled_iff p s.block
    have stays : ¬ pllEnabled p s.block = true → step s = .next s.endTurn := fun stay => by
      rw [step_of_turn_pll turn, pllStep_of_not_enabled (s := s.endTurn) stay]
    refine ⟨fun go => ?locks, fun bypassed => ?bypass, fun stay => stays (mt enabled.1 stay)⟩
    case locks =>
      have ⟨unlocked, plain, _, _⟩ := go
      refine ⟨output_of_unlocked unlocked plain, output_of_locked rfl plain, ?_⟩
      rw [step_of_turn_pll turn, pllStep_of_enabled (s := s.endTurn) (enabled.2 go)]
      rfl
    case bypass =>
      obtain ⟨output, disabled⟩ := bypass_passes_reference bypassed
      exact ⟨output, stays (by simp [disabled])⟩

end Sys2Proof.Machine

/-! SUPPORT. ClockSelect (42_clock_mux.md): its two transactions and the clock that the core takes. -/

namespace Sys2Proof.Machine

theorem clkselWord_sel (b : Block) (d : Word) : (clkselWord b d).getLsbD 0 = b.sel :=
  congrArg Block.sel (writeClksel_clkselWord b d)

/-- Above SEL every bit is the draw's. -/
theorem getLsbD_clkselWord_of_pos (b : Block) (d : Word) {k : Nat} (hpos : 1 ≤ k) (hk : k < 32) :
    (clkselWord b d).getLsbD k = d.getLsbD k := by
  have mask : ∀ j < 32, 1 ≤ j → (0xFFFFFFFE#32).getLsbD j = true := by decide
  have hsel : k ≠ 0 := by omega
  simp [clkselWord, getLsbD_bitAt, mask k hk hpos, hsel]

/-- Settles O22: a read transaction, and the bits of the word it assembles. -/
theorem readClockSelect : Obligations.ReadClockSelect :=
  ⟨fun d => decodeBus_busHeader false .clksel d,
    readsAs_ofRead (r := .clksel) rfl fun b d =>
      ⟨clkselWord_sel b d, fun _ hpos hk => getLsbD_clkselWord_of_pos b d hpos hk⟩⟩

/-- The written bit chooses which of the two checks of R109 is made. -/
theorem mem_clkselHazards_iff (b : Block) (v : Word) (h : HazardReason) :
    h ∈ clkselHazards b v ↔
      (h = .selectUnstablePll ∧ v.getLsbD 0 = false ∧ b.core.bypass = false ∧ b.core.lock = false) ∨
        (h = .selectUnreadyCrystal ∧ v.getLsbD 0 = true ∧ b.xtalRdy = false) := by
  rw [← stable_eq_false_iff, clkselHazards]
  cases v.getLsbD 0
  case false => cases b.core.stable <;> simp
  case true => cases b.xtalRdy <;> simp

/-- While the core PLL is selected, the core runs from what that PLL's output carries (10_state.md R23). -/
theorem coreClock_of_pll_selected {b : Block} (selected : b.sel = false) : coreClock b = .pll b.core.output := by
  simp [coreClock, coreSrc, selected]

/-- A bypassed core PLL that a write selects gives the core the reference clock (R112). -/
theorem coreClock_writeClksel_of_bypass {b : Block} {v : Word} (toPll : v.getLsbD 0 = false)
    (bypassed : b.core.bypass = true) : coreClock (writeClksel b v) = .pll .reference := by
  obtain ⟨output, -⟩ := bypass_passes_reference (b := writeClksel b v) (p := .core) bypassed
  exact (coreClock_of_pll_selected toPll).trans (congrArg CoreClock.pll output)

/-- Settles O28: a write transaction, with the core clock that the stored SEL gives and the reasons it meets. -/
theorem writeClockSelect : Obligations.WriteClockSelect :=
  ⟨fun v => decodeBus_busHeader true .clksel v, fun s v =>
    writesAs_ofWrite (r := .clksel) ⟨rfl, rfl, coreClock_writeClksel_of_bypass⟩ (mem_clkselHazards_iff s.block v)⟩

end Sys2Proof.Machine

/-! SUPPORT. ResetControl (43_reset_control.md section 1): the line at each bit of its word, and its two transactions. -/

namespace Sys2Proof.Machine

/-! ### The lines of a word -/

/-- Each line is the bit of the word at the line's position (R114). -/
theorem linesOfWord_get (v : Word) (x : SubBlock) : (linesOfWord v).get x = v.getLsbD x.pos := by cases x <;> rfl

theorem Lines.ddrAll_iff_fields (l : Lines) :
    l.ddrAll = true ↔ l.ddrCtrl = true ∧ l.ddrAxi = true ∧ l.ddrAhb = true ∧ l.ddrPhy = true := by
  simp [Lines.ddrAll, and_assoc]

theorem linesOfWord_ddrAll_iff (v : Word) :
    (linesOfWord v).ddrAll = true ↔
      v.getLsbD 0 = true ∧ v.getLsbD 1 = true ∧ v.getLsbD 2 = true ∧ v.getLsbD 3 = true :=
  (linesOfWord v).ddrAll_iff_fields

/-- The word of the lines asks for these lines. -/
theorem linesOfWord_word (l : Lines) : linesOfWord l.word = l := by simp [linesOfWord, Lines.word]

theorem Lines.getLsbD_word_pos (l : Lines) (x : SubBlock) : l.word.getLsbD x.pos = l.get x := by
  rw [← linesOfWord_get, linesOfWord_word]

theorem Lines.getLsbD_word_of_reserved (l : Lines) {k : Nat} (hk : k = 4 ∨ 6 ≤ k) : l.word.getLsbD k = false := by
  have h0 : k ≠ 0 := by omega
  have h1 : k ≠ 1 := by omega
  have h2 : k ≠ 2 := by omega
  have h3 : k ≠ 3 := by omega
  have h5 : k ≠ 5 := by omega
  simp [Lines.word, getLsbD_bitAt, h0, h1, h2, h3, h5]

/-! ### The read -/

/-- Bits 4 and 31:6 of the word read are the draw's. -/
theorem getLsbD_rstctlWord_of_reserved (b : Block) (d : Word) {k : Nat} (hk : k = 4 ∨ (6 ≤ k ∧ k < 32)) :
    (rstctlWord b d).getLsbD k = d.getLsbD k := by
  have mask : ∀ j < 32, j = 4 ∨ (6 ≤ j ∧ j < 32) → (0xFFFFFFD0#32).getLsbD j = true := by decide
  rw [rstctlWord, BitVec.getLsbD_or, b.rst.getLsbD_word_of_reserved (by omega), BitVec.getLsbD_and,
    mask k (by omega) hk, Bool.false_or, Bool.and_true]

/-- Settles O23: a read transaction, and the bits of the word it assembles. -/
theorem readResetControl : Obligations.ReadResetControl :=
  ⟨fun d => decodeBus_busHeader false .rstctl d,
    readsAs_ofRead (r := .rstctl) rfl fun b d =>
      have lines := linesOfWord_rstctlWord b d
      ⟨congrArg Lines.ddrCtrl lines, congrArg Lines.ddrAxi lines, congrArg Lines.ddrAhb lines,
        congrArg Lines.ddrPhy lines, congrArg Lines.eth lines, fun _ hk => getLsbD_rstctlWord_of_reserved b d hk⟩⟩

/-! ### The write -/

/-- The lines whose release waits for the controller's (R117). -/
def afterCtrl : List SubBlock := [.ddrAxi, .ddrAhb, .ddrPhy]

theorem mem_afterCtrl_iff (x : SubBlock) : x ∈ afterCtrl ↔ x = .ddrAxi ∨ x = .ddrAhb ∨ x = .ddrPhy := by
  simp [afterCtrl]

/-- The one reason of a ResetControl write: it newly releases a line before its time. -/
theorem mem_rstctlHazards_iff (b : Block) (v : Word) (h : HazardReason) :
    h ∈ rstctlHazards b v ↔ h = .ddrReleaseOrder ∧ b.obs.ddrCtrl = false ∧
      ∃ x ∈ afterCtrl, b.rst.get x = false ∧ v.getLsbD x.pos = true := by
  have early : (∃ x ∈ afterCtrl, b.rst.get x = false ∧ v.getLsbD x.pos = true) ↔
      ((!b.rst.ddrAxi && (linesOfWord v).ddrAxi) || (!b.rst.ddrAhb && (linesOfWord v).ddrAhb) ||
        (!b.rst.ddrPhy && (linesOfWord v).ddrPhy)) = true := by
    simp [afterCtrl, ← linesOfWord_get, Lines.get, or_assoc]
  rw [early, rstctlHazards, List.mem_ite_nil_right, List.mem_singleton, Bool.and_eq_true, Bool.not_eq_true', and_comm,
    and_comm (b := b.obs.ddrCtrl = false)]

theorem writeRstctl_rst_get (b : Block) (v : Word) (x : SubBlock) : (writeRstctl b v).rst.get x = v.getLsbD x.pos :=
  linesOfWord_get v x

/-- A line left at 0 is observed at once, and a released one stays as observed (R118). -/
theorem writeRstctl_obs_get_eq_ite (b : Block) (v : Word) (x : SubBlock) :
    (writeRstctl b v).obs.get x = if v.getLsbD x.pos = true then b.obs.get x else false := by
  rw [writeRstctl_obs_get, linesOfWord_get]
  cases v.getLsbD x.pos <;> simp

/-- Settles O29: a write transaction, with what it does to the lines, to what is observed of them and to propagation, and
the reason it meets. -/
theorem writeResetControl : Obligations.WriteResetControl := by
  refine ⟨fun v => decodeBus_busHeader true .rstctl v, fun s v => writesAs_ofWrite (r := .rstctl) ?stored fun h => ?why⟩
  case stored =>
    refine ⟨writeRstctl_rst_get s.block v, writeRstctl_obs_get_eq_ite s.block v, ?_, rfl⟩
    simp only [← linesOfWord_ddrAll_iff]
    exact writeRstctl_ddrprop s.block v
  case why =>
    simp only [← mem_afterCtrl_iff]
    exact mem_rstctlHazards_iff s.block v h

/-- A line that a word sets within the lines already released is a released one. -/
theorem released_of_word_within {l : Lines} {v : Word} (within : v &&& 0x2F#32 &&& ~~~l.word = 0#32) {x : SubBlock}
    (asked : v.getLsbD x.pos = true) : l.get x = true := by
  have position : x.pos < 32 ∧ (0x2F#32).getLsbD x.pos = true := by cases x <;> decide
  obtain ⟨hlt, mask⟩ := position
  have bit := congrArg (BitVec.getLsbD · x.pos) within
  simpa [asked, mask, hlt, l.getLsbD_word_pos, -BitVec.getLsbD_eq_getElem] using bit

/-- A write that releases no line meets no reason. -/
theorem rstctlHazards_of_within {b : Block} {v : Word} (within : v &&& 0x2F#32 &&& ~~~b.rst.word = 0#32) :
    rstctlHazards b v = [] := by
  refine List.eq_nil_iff_forall_not_mem.2 fun h hmem => ?_
  obtain ⟨-, -, x, -, asserted, asked⟩ := (mem_rstctlHazards_iff b v h).1 hmem
  rw [released_of_word_within within asked] at asserted
  cases asserted

/-- Settles O30: the one reason of the register needs a newly released line. -/
theorem assertionHasNoHazard : Obligations.AssertionHasNoHazard := by
  intro s v within
  have clean : writeHazards .rstctl s.par s.block v = [] := rstctlHazards_of_within within
  exact ⟨_, exec_ofWrite .rstctl v s, by rw [performWrite_eq, clean, raise_nil]⟩

end Sys2Proof.Machine

/-! SUPPORT. The steps of the reset domains (43_reset_control.md section 2): RSTOBS and DDRPROP. -/

namespace Sys2Proof.Machine

variable {s : State}

/-! ### RSTOBS -/

theorem step_of_turn_rstobs {x : SubBlock} (turn : turnOf s = .rstobs x) : step s = .next (rstobsStep x s.endTurn) := by
  rw [step_eq, turn]; rfl

theorem rstobsEnabled_iff (x : SubBlock) (b : Block) :
    rstobsEnabled x b = true ↔ b.rst.get x = true ∧ b.obs.get x = false := by
  simp [rstobsEnabled]

theorem rstobsStep_of_enabled {x : SubBlock} (go : rstobsEnabled x s.block = true) :
    rstobsStep x s = s.withBlock (observe s.par.resetPropNops s.block x) := if_pos go

theorem rstobsStep_of_not_enabled {x : SubBlock} (stay : ¬ rstobsEnabled x s.block = true) : rstobsStep x s = s :=
  if_neg stay

theorem observe_obs_get (bound : Nat) (b : Block) (x y : SubBlock) :
    (observe bound b x).obs.get y = if y = x then true else b.obs.get y :=
  Lines.get_set b.obs x y true

theorem mem_ddrSet_iff (x : SubBlock) : x ∈ ddrSet ↔ x ≠ .eth := mem_deps_ddr_iff x

/-- A propagation that starts has counted no no-op, so it is done at once exactly if the bound is 0 (R122). -/
theorem propCount_zero (bound : Nat) : propCount bound 0 = if bound = 0 then .done else .propagating 0 := by
  simp only [propCount, Nat.le_zero]

/-- The DDR line that completes the observation of the DDR lines starts an idle propagation (R122). -/
theorem observe_ddrprop (bound : Nat) (b : Block) (x : SubBlock) :
    (observe bound b x).ddrprop =
      if x ≠ .eth ∧ (observe bound b x).obs.ddrAll = true ∧ b.ddrprop = .idle then propCount bound 0 else b.ddrprop := by
  simp only [← mem_ddrSet_iff]
  simp [observe, and_assoc]

/-- Settles O14: the step of RSTOBS from the state with the turn used up, and what observing the line does. -/
theorem subBlockObservesRelease : Obligations.SubBlockObservesRelease := by
  intro s x turn
  rw [step_of_turn_rstobs turn]
  have enabled := rstobsEnabled_iff x s.block
  constructor
  · intro stay
    rw [rstobsStep_of_not_enabled (s := s.endTurn) (mt enabled.1 stay)]
    rfl
  · intro go
    rw [rstobsStep_of_enabled (s := s.endTurn) (enabled.2 go)]
    refine ⟨_, rfl, rfl, observe_obs_get _ s.block x, ?_⟩
    simp only [← propCount_zero, ← Lines.ddrAll_iff_fields]
    exact observe_ddrprop s.par.resetPropNops s.block x

/-! ### DDRPROP -/

theorem step_of_turn_ddrprop (turn : turnOf s = .ddrprop) : step s = .next (ddrpropStep s.endTurn) := by
  rw [step_eq, turn]; rfl

theorem ddrpropStep_of_propagating {n : Nat} (h : s.block.ddrprop = .propagating n) :
    ddrpropStep s = s.withBlock { s.block with ddrprop := .done } := by
  simp [ddrpropStep, ddrpropEnabled, h]

theorem ddrpropStep_of_not_propagating (h : ∀ n, s.block.ddrprop ≠ .propagating n) : ddrpropStep s = s := by
  cases hd : s.block.ddrprop with
  | propagating n => exact absurd hd (h n)
  | idle | done => simp [ddrpropStep, ddrpropEnabled, hd]

/-- Settles O15: the step of DDRPROP from the state with the turn used up. -/
theorem propagationMayCompleteEarly : Obligations.PropagationMayCompleteEarly := by
  intro s turn
  rw [step_of_turn_ddrprop turn]
  constructor
  · intro n h
    rw [ddrpropStep_of_propagating (s := s.endTurn) h]
    rfl
  · intro h
    rw [ddrpropStep_of_not_propagating (s := s.endTurn) h]
    rfl

end Sys2Proof.Machine

/-! SUPPORT. A whole DELAY and the propagation it outlasts (44_fence_and_delay.md R129, 43_reset_control.md R124). -/

namespace Sys2Proof.Machine

/-! ### No-ops retired in a row -/

/-- One more no-op moves a propagation's count on by one (R124). -/
theorem propNop_propCount (bound n : Nat) : propNop bound (propCount bound n) = propCount bound (n + 1) := by
  unfold propCount
  split
  · rename_i reached
    rw [propNop_done, if_pos (Nat.le_succ_of_le reached)]
  · rfl

theorem iterate_propNop_propCount (bound n k : Nat) :
    (propNop bound)^[k] (propCount bound n) = propCount bound (n + k) := by
  induction k generalizing n with
  | zero => rfl
  | succ k ih => rw [Function.iterate_succ_apply, propNop_propCount, ih, Nat.add_right_comm, Nat.add_assoc]

theorem propCount_of_le {bound n : Nat} (reached : bound ≤ n) : propCount bound n = .done := if_pos reached

/-- As many no-ops as the bound, and at least one, complete a propagation that has just started (R124). -/
theorem iterate_propNop_of_le {bound k : Nat} (reached : bound ≤ k + 1) :
    (propNop bound)^[k + 1] (.propagating 0) = .done := by
  rw [Function.iterate_succ_apply]
  change (propNop bound)^[k] (propCount bound 1) = .done
  rw [iterate_propNop_propCount, propCount_of_le (by omega)]

/-- `k` no-ops retired in a row count `k`, move propagation on `k` times, and change nothing else. -/
theorem iterate_retireNop (k : Nat) (s : State) :
    State.retireNop^[k] s = { s with
      seq := { s.seq with nops := s.seq.nops + k }
      block := { s.block with ddrprop := (propNop s.par.resetPropNops)^[k] s.block.ddrprop } } := by
  induction k generalizing s with
  | zero => rfl
  | succ k ih =>
    rw [Function.iterate_succ_apply, ih]
    simp [State.retireNop, Nat.add_right_comm, Nat.add_assoc]

theorem iterate_retireNop_setDelay (k : Nat) (s : State) (c : Option Nat) :
    State.retireNop^[k] (s.setDelay c) = (State.retireNop^[k] s).setDelay c := by
  rw [iterate_retireNop, iterate_retireNop]; rfl

/-! ### DELAY, step by step and as a whole -/

variable {s t : State} {n c : Nat}

theorem exec_delay_last (count : s.seq.delayCtr.getD n = 1) :
    exec (.delay n) s = .next (s.retireNop.setDelay none).advance := by
  simp [exec, execDelay, count]

theorem exec_delay_more (count : s.seq.delayCtr.getD n = c + 2) :
    exec (.delay n) s = .next (s.retireNop.setDelay (some (c + 1))) := by
  simp [exec, execDelay, count]

theorem execTimes_succ {i : Instr} (h : exec i s = .next t) (k : Nat) : execTimes i (k + 1) s = execTimes i k t := by
  simp [execTimes, h]

/-- A DELAY that has `k + 1` no-ops to go ends after as many steps: they are retired, and pc advances once (R129). -/
theorem execTimes_delay (k : Nat) (count : s.seq.delayCtr.getD n = k + 1) :
    execTimes (.delay n) (k + 1) s = .next ((State.retireNop^[k + 1] s).setDelay none).advance := by
  induction k generalizing s with
  | zero => exact execTimes_succ (exec_delay_last count) 0
  | succ k ih =>
    rw [execTimes_succ (exec_delay_more count), ih rfl, iterate_retireNop_setDelay,
      ← Function.iterate_succ_apply State.retireNop]
    rfl

/-- Settles O42: the whole DELAY retires `n` no-ops, which complete the propagation. -/
theorem delayOutlastsPropagation : Obligations.DelayOutlastsPropagation := by
  intro s n noCount started positive reached
  obtain ⟨k, rfl⟩ := Nat.exists_eq_add_of_le' positive
  refine ⟨_, execTimes_delay k (by rw [noCount]; rfl), ?_, ?_, ?_⟩ <;> rw [iterate_retireNop]
  · change (propNop s.par.resetPropNops)^[k + 1] s.block.ddrprop = .done
    rw [started, iterate_propNop_of_le reached]
  · rfl
  · rfl

end Sys2Proof.Machine

/-! SUPPORT. FENCE, NOP and DELAY, one execution at a time (44_fence_and_delay.md R127 to R129). -/

namespace Sys2Proof.Machine

variable {s : State} {n c : Nat}

theorem exec_fence_of_ready (empty : s.wbuf = []) (observed : allObserved s.block = true) :
    exec .fence s = .next (s.log .fence).advance := by
  simp [exec, execFence, empty, observed]

theorem exec_fence_of_not_ready (wait : ¬ (s.wbuf = [] ∧ allObserved s.block = true)) :
    exec .fence s = .next s := by
  simp only [exec, execFence, if_neg wait]

/-- Settles O38: the model's `allObserved` is the statement's equality line by line. -/
theorem fenceWaitsForWritesAndObservation : Obligations.FenceWaitsForWritesAndObservation := by
  refine ⟨rfl, fun s => ?_⟩
  simp only [← allObserved_iff]
  exact ⟨fun ⟨empty, observed⟩ => exec_fence_of_ready empty observed, exec_fence_of_not_ready⟩

theorem exec_nop (s : State) : exec .nop s = .next s.retireNop.advance := rfl

/-- Settles O39: one retired no-op, and what it does to propagation in each of its states. -/
theorem nopCountsTowardPropagation : Obligations.NopCountsTowardPropagation := by
  refine ⟨rfl, fun s => ?_⟩
  rw [exec_nop]
  unfold State.retireNop State.advance
  cases s.block.ddrprop with
  | propagating n => rfl
  | idle | done => rfl

/-- The first word of DELAY n as a number: its code at the top, the count at the bottom (R73, R74). -/
theorem seqW0_delay (hn : n < 65536) : seqW0 0x07#8 0 (BitVec.ofNat 16 n) = BitVec.ofNat 32 (0x07000000 + n) := by
  apply BitVec.eq_of_toNat_eq
  rw [Laws.EncodedForm.seqW0_toNat]
  simp only [BitVec.ofNat_eq_ofNat, BitVec.toNat_ofNat]
  omega

theorem decodeSeq_delay (hn : n < 65536) :
    decodeSeq ⟨BitVec.ofNat 32 (0x07000000 + n), 0, 0⟩ = .ok (.delay n) := by
  rw [← seqW0_delay hn]
  exact decode_encode_of_seq (i := .delay n) rfl (decide_eq_true hn)

theorem exec_delay_none (count : s.seq.delayCtr.getD n = 0) : exec (.delay n) s = .next (s.setDelay none).advance := by
  simp [exec, execDelay, count]

/-- A DELAY with `c` no-ops to go retires one, and ends if it was the last (R129). -/
theorem exec_delay_of_pos (count : s.seq.delayCtr.getD n = c) (some_left : c ≠ 0) :
    exec (.delay n) s = .next { s.retireNop with
      seq := { s.retireNop.seq with
        pc := if c = 1 then s.seq.pc + 1 else s.seq.pc
        delayCtr := if c = 1 then none else some (c - 1) } } := by
  match c with
  | 0 => exact absurd rfl some_left
  | 1 => exact exec_delay_last count
  | c + 2 => exact exec_delay_more count

/-- Settles O40: a NOP retires the same no-op, so only the pc and the count are left to set. -/
theorem delayStep : Obligations.DelayStep := by
  refine ⟨fun n => decodeSeq_delay, fun s n => ?_⟩
  intro c
  have count : s.seq.delayCtr.getD n = c := by
    unfold c
    cases s.seq.delayCtr <;> rfl
  exact ⟨fun none_left => exec_delay_none (count.trans none_left),
    fun some_left => ⟨_, exec_nop s, exec_delay_of_pos count some_left⟩⟩

/-! ### Executions in a row -/

/-- `k` NOPs retire `k` no-ops and advance pc as often (R128). -/
theorem execTimes_nop (k : Nat) (s : State) :
    execTimes .nop k s = .next { State.retireNop^[k] s with
      seq := { (State.retireNop^[k] s).seq with pc := s.seq.pc + k } } := by
  induction k generalizing s with
  | zero => rfl
  | succ k ih =>
    rw [execTimes_succ (exec_nop s), ih, iterate_retireNop, iterate_retireNop, Function.iterate_succ_apply]
    simp [State.retireNop, State.advance, Nat.add_right_comm, Nat.add_assoc]

/-- A DELAY that has more than `k` no-ops to go retires `k` and leaves the rest to go (R129). -/
theorem execTimes_delay_more (k : Nat) (count : s.seq.delayCtr.getD n = k + c + 2) :
    execTimes (.delay n) (k + 1) s = .next ((State.retireNop^[k + 1] s).setDelay (some (c + 1))) := by
  induction k generalizing s with
  | zero => exact execTimes_succ (exec_delay_more (by omega)) 0
  | succ k ih =>
    rw [execTimes_succ (exec_delay_more (c := k + 1 + c) count), ih (by simp; omega), iterate_retireNop_setDelay,
      ← Function.iterate_succ_apply State.retireNop]
    rfl

/-- Settles O41: both sequences retire `k` no-ops; they differ in the pc and the count. -/
theorem delayTakesExactlyItsCount : Obligations.DelayTakesExactlyItsCount := by
  intro s n k noCount positive within
  obtain ⟨k, rfl⟩ := Nat.exists_eq_add_of_le' positive
  have count : s.seq.delayCtr.getD n = n := by rw [noCount]; rfl
  rcases within.eq_or_lt with rfl | more
  · refine ⟨_, _, execTimes_delay k count, execTimes_nop _ s, ?_⟩
    rw [iterate_retireNop]
    simp [State.setDelay, State.advance]
  · obtain ⟨c, rfl⟩ := Nat.exists_eq_add_of_lt more
    refine ⟨_, _, execTimes_delay_more k (c := c) (by omega), execTimes_nop _ s, ?_⟩
    rw [iterate_retireNop]
    simp [State.setDelay, show k + 1 + c + 1 - (k + 1) = c + 1 by omega]
    omega

end Sys2Proof.Machine

/-! SUPPORT. A FENCE after the work that is pending: a run of BUS, of the sub-blocks and of SEQ (44_fence_and_delay.md
R127, 20_memory.md R53, 43_reset_control.md R120). -/

namespace Sys2Proof.Machine

/-! ### A run, step by step -/

section Run

variable {s t : State}

theorem run_succ_of_step (h : step s = .next t) (k : Nat) : Sys2Proof.core.run (k + 1) s = Sys2Proof.core.run k t := by
  have hcore : Sys2Proof.core.step s = .next t := h
  simp only [Host.Core.run, hcore]

theorem turnOf_of_sched {turn : Turn} {rest : List Turn} (h : s.sched = turn :: rest) : turnOf s = turn := by
  simp [turnOf, h]

theorem step_of_turn_seq (turn : turnOf s = .seq) : step s = seqStep s.endTurn := by
  rw [step_eq, turn]; rfl

theorem seqStep_of_fetch {q : SeqWords} {i : Instr} (running : s.seq.status = .running) (clear : s.refused = none)
    (hf : fetch s = some q) (hd : decodeSeq q = .ok i) : seqStep s = exec i s := by
  simp [seqStep, seqEnabled, running, clear, hf, hd]

end Run

/-! ### What the work before the FENCE leaves as it is -/

/-- SEQ stands in `t` where it stands in `s`, at the same operation, and the block invariant still holds. -/
structure SeqWaits (s t : State) : Prop where
  seq : t.seq = s.seq
  launch : t.launch = s.launch
  refused : t.refused = s.refused
  inv : blockInv s.par s.block → blockInv t.par t.block

theorem SeqWaits.refl (s : State) : SeqWaits s s := ⟨rfl, rfl, rfl, id⟩

theorem SeqWaits.trans {s t u : State} (h : SeqWaits s t) (h' : SeqWaits t u) : SeqWaits s u :=
  ⟨h'.seq.trans h.seq, h'.launch.trans h.launch, h'.refused.trans h.refused, h'.inv ∘ h.inv⟩

variable {s : State} {rest : List Turn}

/-! ### BUS performs what is posted -/

/-- BUS's turn performs the oldest write; SEQ is left as it is. -/
theorem step_bus_of_pending {r : Reg} {v : Word} {ws : List (Reg × Word)} (turn : turnOf s = .bus)
    (pending : s.wbuf = (r, v) :: ws) :
    ∃ t, step s = .next t ∧ t.sched = s.sched.tail ∧ t.wbuf = ws ∧ t.events = s.events ++ [.write r v] ∧
      SeqWaits s t := by
  refine ⟨performWrite r v { s.endTurn with wbuf := ws }, ?_, rfl, rfl, rfl, rfl, rfl, rfl, fun inv => ?_⟩
  · rw [step_of_turn_bus turn, busStep_of_pending (s := s.endTurn) pending, exec_ofWrite]
  · exact blockInv_writeBlock inv r v

/-- As many turns of BUS as there are posted writes perform them all, in their order (R53). -/
theorem run_bus_turns (hs : s.sched = List.replicate s.wbuf.length .bus ++ rest) (k : Nat) :
    ∃ t, Sys2Proof.core.run (s.wbuf.length + k) s = Sys2Proof.core.run k t ∧ t.sched = rest ∧ t.wbuf = [] ∧
      t.events = s.events ++ s.wbuf.map (fun x => .write x.1 x.2) ∧ SeqWaits s t := by
  generalize hw : s.wbuf = ws at hs ⊢
  induction ws generalizing s with
  | nil => exact ⟨s, by simp, hs, hw, by simp, .refl s⟩
  | cons x ws ih =>
    obtain ⟨u, hstep, hsched, hwbuf, hevents, waits⟩ := step_bus_of_pending (turnOf_of_sched hs) hw
    obtain ⟨t, hrun, hsched', hwbuf', hevents', waits'⟩ := ih hwbuf (by rw [hsched, hs]; rfl)
    refine ⟨t, ?_, hsched', hwbuf', by simp [hevents', hevents], waits.trans waits'⟩
    rw [List.length_cons, Nat.add_right_comm, run_succ_of_step hstep, hrun]

/-! ### The sub-blocks observe their lines -/

/-- The sub-block `x` has observed its line (R121). -/
def Block.Observed (b : Block) (x : SubBlock) : Prop := b.obs.get x = b.rst.get x

/-- A line is observed exactly if its sub-block has no step: one that is asserted counts as observed (R26, R118). -/
theorem observed_iff_not_rstobsEnabled {par : Params} {b : Block} (inv : blockInv par b) (x : SubBlock) :
    b.Observed x ↔ ¬ rstobsEnabled x b = true := by
  obtain ⟨-, hobs, -, -⟩ := inv
  have released := hobs x
  rw [rstobsEnabled_iff, Block.Observed]
  revert released
  cases b.obs.get x <;> cases b.rst.get x <;> decide

theorem observed_observe {b : Block} {x y : SubBlock} (bound : Nat) (released : b.rst.get x = true)
    (hy : y = x ∨ b.Observed y) : (observe bound b x).Observed y := by
  refine (observe_obs_get bound b x y).trans ?_
  split
  · next same => rw [same]; exact released.symm
  · next other => exact hy.resolve_left other

/-- After the turn of RSTOBS(x) the line of `x` is observed, and so is every line that was before; SEQ and BUS are left
as they are (R120). -/
theorem step_rstobs {x : SubBlock} (inv : blockInv s.par s.block) (turn : turnOf s = .rstobs x) :
    ∃ t, step s = .next t ∧ t.sched = s.sched.tail ∧ t.wbuf = s.wbuf ∧ t.events = s.events ∧ SeqWaits s t ∧
      ∀ y, y = x ∨ s.block.Observed y → t.block.Observed y := by
  rw [step_of_turn_rstobs turn]
  refine ⟨_, rfl, ?_⟩
  by_cases go : rstobsEnabled x s.block = true
  · rw [rstobsStep_of_enabled (s := s.endTurn) go]
    obtain ⟨released, unseen⟩ := (rstobsEnabled_iff x s.block).1 go
    exact ⟨rfl, rfl, rfl, ⟨rfl, rfl, rfl, fun inv => blockInv_observe inv released unseen⟩,
      fun y => observed_observe _ released⟩
  · rw [rstobsStep_of_not_enabled (s := s.endTurn) go]
    refine ⟨rfl, rfl, rfl, ⟨rfl, rfl, rfl, id⟩, fun y hy => ?_⟩
    rcases hy with rfl | seen
    · exact (observed_iff_not_rstobsEnabled inv y).2 go
    · exact seen

/-- After a turn of each of `xs`, their lines are observed, and those that were before (R120). -/
theorem run_rstobs_turns (xs : List SubBlock) (inv : blockInv s.par s.block) (hs : s.sched = xs.map .rstobs ++ rest)
    (k : Nat) :
    ∃ t, Sys2Proof.core.run (xs.length + k) s = Sys2Proof.core.run k t ∧ t.sched = rest ∧ t.wbuf = s.wbuf ∧
      t.events = s.events ∧ SeqWaits s t ∧ ∀ y, y ∈ xs ∨ s.block.Observed y → t.block.Observed y := by
  induction xs generalizing s with
  | nil => exact ⟨s, by simp, hs, rfl, rfl, .refl s, by simp⟩
  | cons x xs ih =>
    obtain ⟨u, hstep, hsched, hwbuf, hevents, waits, hobs⟩ := step_rstobs inv (turnOf_of_sched hs)
    obtain ⟨t, hrun, hsched', hwbuf', hevents', waits', hobs'⟩ := ih (waits.inv inv) (by rw [hsched, hs]; rfl)
    refine ⟨t, ?_, hsched', hwbuf'.trans hwbuf, hevents'.trans hevents, waits.trans waits', fun y hy => hobs' y ?_⟩
    · rw [List.length_cons, Nat.add_right_comm, run_succ_of_step hstep, hrun]
    · rw [List.mem_cons, or_assoc, or_left_comm] at hy
      exact hy.imp_right (hobs y)

/-! ### The FENCE -/

theorem mem_allSet (x : SubBlock) : x ∈ allSet := by cases x <;> decide

/-- SEQ's turn at a FENCE with nothing posted and every line observed completes it (R127). -/
theorem step_fence_of_ready {q : SeqWords} (turn : turnOf s = .seq) (running : s.seq.status = .running)
    (clear : s.refused = none) (hf : fetch s = some q) (hd : decodeSeq q = .ok .fence) (empty : s.wbuf = [])
    (observed : ∀ x, s.block.Observed x) : step s = .next (s.endTurn.log .fence).advance := by
  rw [step_of_turn_seq turn, seqStep_of_fetch (s := s.endTurn) running clear hf hd]
  exact exec_fence_of_ready (s := s.endTurn) empty ((allObserved_iff s.block).2 observed)

/-- Settles O59: BUS empties the buffer, the sub-blocks observe what BUS left, and SEQ, which has waited at the FENCE,
completes it. -/
theorem fenceCompletesAfterPendingWork : Obligations.FenceCompletesAfterPendingWork := by
  intro s q inv running clear hf hd hs
  obtain ⟨u, hrun, hsched, hwbuf, hevents, waits⟩ := run_bus_turns hs 6
  obtain ⟨t, hrun', hsched', hwbuf', hevents', waits', hobs⟩ :=
    run_rstobs_turns (rest := [.seq]) allSet (waits.inv inv) hsched 1
  obtain ⟨hseq, hlaunch, hrefused, -⟩ := waits.trans waits'
  have observed : ∀ x, t.block.Observed x := fun x => hobs x (.inl (mem_allSet x))
  have hfence := step_fence_of_ready (turnOf_of_sched hsched') (by rw [hseq, running]) (by rw [hrefused, clear])
    (by unfold fetch; rw [hlaunch, hseq, hf]) hd (hwbuf'.trans hwbuf) observed
  refine ⟨_, (hrun.trans hrun').trans (run_succ_of_step hfence 0), ?_, ?_, hwbuf'.trans hwbuf, observed⟩
  · change { t.seq with pc := t.seq.pc + 1 } = _
    rw [hseq]
  · change t.events ++ [.fence] = _
    rw [hevents', hevents]

end Sys2Proof.Machine

/-! SUPPORT. A program at load (45_sequencer.md R134): which operations decode, and where RET stands. -/

namespace Sys2Proof.Machine

/-! ### Where RET stands -/

/-- What operations decode to is not nothing, and RET is the last of it and no other (R134). -/
def RetOnlyLast (ds : List (Except RefuseReason Instr)) : Prop :=
  ds ≠ [] ∧ ∀ k d, ds[k]? = some d → (d = .ok .ret ↔ k + 1 = ds.length)

theorem retOnlyLast_singleton (d : Except RefuseReason Instr) : RetOnlyLast [d] ↔ d = .ok .ret := by
  simp [RetOnlyLast, ← Nat.and_forall_add_one (p := fun k => ∀ d', [d][k]? = some d' → _)]

theorem retOnlyLast_cons_cons (d d' : Except RefuseReason Instr) (ds : List (Except RefuseReason Instr)) :
    RetOnlyLast (d :: d' :: ds) ↔ d ≠ .ok .ret ∧ RetOnlyLast (d' :: ds) := by
  unfold RetOnlyLast
  rw [← Nat.and_forall_add_one]
  simp

theorem retOnlyLast_map_ok_iff (is : List Instr) : RetOnlyLast (is.map .ok) ↔ endsInOneRet is = true := by
  induction is with
  | nil => simp [RetOnlyLast, endsInOneRet]
  | cons i is ih =>
    cases is with
    | nil => simp [retOnlyLast_singleton, endsInOneRet]
    | cons j js => simp [retOnlyLast_cons_cons, endsInOneRet, ← ih]

theorem retOnlyLast_map_decodeSeq_iff (qs : List SeqWords) :
    RetOnlyLast (qs.map decodeSeq) ↔
      qs ≠ [] ∧ ∀ k q, qs[k]? = some q → (decodeSeq q = .ok .ret ↔ k + 1 = qs.length) := by
  simp [RetOnlyLast]

/-! ### Which operations decode -/

theorem decodeAll_cons_of_error {q : SeqWords} {e : RefuseReason} (hd : decodeSeq q = .error e) (qs : List SeqWords) :
    decodeAll (q :: qs) = .error e := by
  simp [decodeAll, hd]

theorem decodeAll_cons_of_ok {q : SeqWords} {i : Instr} (hd : decodeSeq q = .ok i) (qs : List SeqWords) :
    decodeAll (q :: qs) = (decodeAll qs).map (i :: ·) := by
  rw [decodeAll, hd]
  cases decodeAll qs <;> rfl

/-- A program decodes operation by operation. -/
theorem decodeAll_eq_ok_iff (qs : List SeqWords) (is : List Instr) :
    decodeAll qs = .ok is ↔ qs.map decodeSeq = is.map .ok := by
  induction qs generalizing is with
  | nil => cases is <;> simp [decodeAll]
  | cons q qs ih =>
    cases hq : decodeSeq q with
    | error e => cases is <;> simp [decodeAll_cons_of_error hq, hq]
    | ok i =>
      rw [decodeAll_cons_of_ok hq, List.map_cons, hq]
      cases is with
      | nil => cases decodeAll qs <;> simp [Except.map]
      | cons j js =>
        rw [List.map_cons, List.cons.injEq, ← ih]
        cases decodeAll qs <;> simp [Except.map]

theorem exists_decodeAll_iff (qs : List SeqWords) :
    (∃ is, decodeAll qs = .ok is) ↔ ∀ q ∈ qs, ∃ i, decodeSeq q = .ok i := by
  have lists : (∃ is : List Instr, is.map Except.ok = qs.map decodeSeq) ↔
      ∀ d ∈ qs.map decodeSeq, ∃ i, Except.ok i = d :=
    Set.ext_iff.1 (Set.range_list_map Except.ok) (qs.map decodeSeq)
  rw [List.forall_mem_map] at lists
  simp only [decodeAll_eq_ok_iff, eq_comm (a := qs.map decodeSeq), eq_comm (a := decodeSeq _)]
  exact lists

/-- The first operation that does not decode gives the reason. -/
theorem decodeAll_of_first_error {good : List SeqWords} (hgood : ∀ p ∈ good, ∃ i, decodeSeq p = .ok i) {q : SeqWords}
    {e : RefuseReason} (hq : decodeSeq q = .error e) (bad : List SeqWords) :
    decodeAll (good ++ q :: bad) = .error e := by
  induction good with
  | nil => exact decodeAll_cons_of_error hq bad
  | cons p good ih =>
    obtain ⟨⟨i, hi⟩, rest⟩ := List.forall_mem_cons.1 hgood
    rw [List.cons_append, decodeAll_cons_of_ok hi, ih rest]
    rfl

/-! ### The check at load -/

theorem checkProgram_of_error {qs : List SeqWords} {e : RefuseReason} (h : decodeAll qs = .error e) :
    checkProgram qs = .error e := by
  simp [checkProgram, h]

theorem checkProgram_of_ok {qs : List SeqWords} {is : List Instr} (h : decodeAll qs = .ok is) :
    checkProgram qs = if endsInOneRet is then .ok is else .error .noFinalRet := by
  simp [checkProgram, h]

/-- In a program that decodes, the check of the instructions is the check of what the operations decode to. -/
theorem endsInOneRet_iff_of_decodeAll {qs : List SeqWords} {is : List Instr} (h : decodeAll qs = .ok is) :
    endsInOneRet is = true ↔ RetOnlyLast (qs.map decodeSeq) := by
  rw [(decodeAll_eq_ok_iff qs is).1 h, retOnlyLast_map_ok_iff]

theorem exists_checkProgram_iff (qs : List SeqWords) :
    (∃ is, checkProgram qs = .ok is) ↔ (∀ q ∈ qs, ∃ i, decodeSeq q = .ok i) ∧ RetOnlyLast (qs.map decodeSeq) := by
  rw [← exists_decodeAll_iff]
  cases h : decodeAll qs with
  | error e => simp [checkProgram_of_error h]
  | ok is =>
    rw [checkProgram_of_ok h, ← endsInOneRet_iff_of_decodeAll h]
    split <;> simp_all

/-- A program is admitted exactly if it has R134's form. -/
theorem exists_checkProgram_iff_form (qs : List SeqWords) :
    (∃ is, checkProgram qs = .ok is) ↔
      qs ≠ [] ∧ ∀ k q, qs[k]? = some q → ∃ i, decodeSeq q = .ok i ∧ (i = .ret ↔ k + 1 = qs.length) := by
  rw [exists_checkProgram_iff, retOnlyLast_map_decodeSeq_iff]
  constructor
  · rintro ⟨all, nonempty, ends⟩
    refine ⟨nonempty, fun k q hq => ?_⟩
    obtain ⟨i, hi⟩ := all q (List.mem_of_getElem? hq)
    exact ⟨i, hi, by rw [← ends k q hq, hi, Except.ok.injEq]⟩
  · rintro ⟨nonempty, form⟩
    refine ⟨fun q hq => ?_, nonempty, fun k q hq => ?_⟩
    · obtain ⟨k, hk⟩ := List.getElem?_of_mem hq
      obtain ⟨i, hi, -⟩ := form k q hk
      exact ⟨i, hi⟩
    · obtain ⟨i, hi, ends⟩ := form k q hq
      rw [hi, Except.ok.injEq, ends]

theorem checkProgram_of_not_retOnlyLast {qs : List SeqWords} (all : ∀ q ∈ qs, ∃ i, decodeSeq q = .ok i)
    (ends : ¬ RetOnlyLast (qs.map decodeSeq)) : checkProgram qs = .error .noFinalRet := by
  obtain ⟨is, his⟩ := (exists_decodeAll_iff qs).2 all
  rw [checkProgram_of_ok his, if_neg (mt (endsInOneRet_iff_of_decodeAll his).1 ends)]

theorem launchWith_of_error {l : Launch} {e : RefuseReason} (h : checkProgram l.program = .error e) (s : State) :
    s.launchWith l = s.refuse e := by
  simp [State.launchWith, h]

theorem launchWith_of_ok {l : Launch} {is : List Instr} (h : checkProgram l.program = .ok is) (s : State) :
    s.launchWith l = { s with launch := l } := by
  simp [State.launchWith, h]

/-- Settles O6: the form of an admitted program, the two ways to fail it, and what loading does with the answer. -/
theorem programAdmittedExactlyIfWellFormed : Obligations.ProgramAdmittedExactlyIfWellFormed := by
  refine ⟨exists_checkProgram_iff_form, fun good bad q e hgood hq => ?refused, fun qs all misplaced => ?noFinalRet,
    fun s l => ⟨fun e h => launchWith_of_error h s, fun is h => launchWith_of_ok h s⟩⟩
  case refused => exact checkProgram_of_error (decodeAll_of_first_error hgood hq bad)
  case noFinalRet => exact checkProgram_of_not_retOnlyLast all (mt (retOnlyLast_map_decodeSeq_iff qs).1 misplaced)

end Sys2Proof.Machine

/-! SUPPORT. A well-formed program stays in range (45_sequencer.md R134, R140). -/

namespace Sys2Proof.Machine

variable {s t : State} {i : Instr} {turn : Turn}

/-- The program invariant speaks of the launch, the status and the pc only. -/
theorem programInv_congr (hseq : t.seq = s.seq) (hlaunch : t.launch = s.launch) (inv : programInv s) :
    programInv t := by
  unfold programInv at *
  rwa [hseq, hlaunch]

/-- Where the program invariant holds a running sequencer fetches an operation, which decodes, to RET only at the last
index. -/
theorem programInv.fetches (inv : programInv s) (running : s.seq.status = .running) :
    ∃ q i, fetch s = some q ∧ decodeSeq q = .ok i ∧ (i ≠ .ret → s.seq.pc + 1 < s.launch.program.length) := by
  obtain ⟨admitted, inRange⟩ := inv
  obtain ⟨-, form⟩ := (exists_checkProgram_iff_form _).1 admitted
  have hpc := inRange running
  have hf : fetch s = some s.launch.program[s.seq.pc] := List.getElem?_eq_getElem hpc
  obtain ⟨i, hd, last⟩ := form _ _ hf
  refine ⟨_, i, hf, hd, fun other => ?_⟩
  have notLast := mt last.2 other
  omega

/-- Where an instruction leaves pc: where it was, and if it is not RET also one further or at the program's last
index. -/
theorem ExecTo.pc_cases (h : ExecTo s i t) :
    t.seq.pc = s.seq.pc ∨
      i ≠ .ret ∧ (t.seq.pc = s.seq.pc + 1 ∨ t.seq.pc = s.launch.program.length - 1) := by
  cases h with
  | hold | write | delayMore | ret => exact .inl rfl
  | read _ r pc _ hpc hi =>
    refine hpc.imp_right fun hpc => ⟨?_, .inl hpc⟩
    rcases hi with rfl | ⟨m, v, rfl⟩ | rfl
    · nofun
    · nofun
    · cases r <;> nofun
  | exitIfEmu pc hpc => exact .inr ⟨nofun, hpc.symm⟩
  | _ => exact .inr ⟨nofun, .inl rfl⟩

/-- An operation that SEQ fetched and executed keeps pc in range: the one that is last does not advance it. -/
theorem ExecTo.keeps_programInv_of_fetch (h : ExecTo s i t) (inv : programInv s) {q : SeqWords}
    (running : s.seq.status = .running) (hf : fetch s = some q) (hd : decodeSeq q = .ok i) : programInv t := by
  obtain ⟨q', i', hf', hd', next⟩ := inv.fetches running
  cases hf.symm.trans hf'
  cases hd.symm.trans hd'
  obtain ⟨-, hlaunch, -, -⟩ := h.frame
  obtain ⟨admitted, inRange⟩ := inv
  have hpc := inRange running
  unfold programInv
  rw [hlaunch]
  refine ⟨admitted, fun _ => ?_⟩
  obtain hsame | ⟨other, hnext | hlast⟩ := h.pc_cases
  · omega
  · have := next other
    omega
  · omega

/-- A transaction at the port, which runs only outside a run, starts none. -/
theorem ExecTo.keeps_programInv_of_port (h : ExecTo s i t) (inv : programInv s) (idle : s.seq.status ≠ .running) :
    programInv t := by
  obtain ⟨-, hlaunch, -, -⟩ := h.frame
  obtain ⟨admitted, -⟩ := inv
  refine ⟨by rwa [hlaunch], fun running => ?_⟩
  obtain ⟨-, hsame | ⟨-, hdone⟩⟩ := h.status_cases
  · exact absurd (hsame ▸ running) idle
  · cases hdone.symm.trans running

theorem StepTo.keeps_programInv (h : StepTo s turn t) (inv : programInv s) : programInv t := by
  cases h with
  | seqExec q i _ running _ hf hd hx => exact hx.keeps_programInv_of_fetch inv running hf hd
  | portExec _ _ _ _ idle _ hx => exact hx.keeps_programInv_of_port inv idle
  | hostStart _ _ =>
    obtain ⟨admitted, -⟩ := inv
    obtain ⟨nonempty, -⟩ := (exists_checkProgram_iff_form _).1 admitted
    exact ⟨admitted, fun _ => List.length_pos_iff.2 nonempty⟩
  | _ => exact programInv_congr rfl rfl inv

/-- With a well-formed program SEQ's turn refuses nothing. -/
theorem StepTo.keeps_refused_of_seq (h : StepTo s .seq t) (inv : programInv s) : t.refused = s.refused := by
  cases h with
  | hold => rfl
  | seqExec _ _ _ _ _ _ _ hx =>
    obtain ⟨-, -, hrefused, -⟩ := hx.frame
    exact hrefused
  | seqRefuse e running _ bad =>
    obtain ⟨q, i, hf, hd, -⟩ := inv.fetches running
    rcases bad with outside | ⟨q', hf', hd'⟩
    · cases hf.symm.trans outside
    · cases hf.symm.trans hf'
      cases hd.symm.trans hd'

/-- Settles O51: only RET does not leave room for pc to advance, and RET does not advance it; a start sets pc to 0, and a
well-formed program is not empty. -/
theorem wellFormedProgramStaysInRange : Obligations.WellFormedProgramStaysInRange := by
  intro s t inv h
  have hstep := step_to h
  exact ⟨hstep.keeps_programInv inv, fun turn => (turn ▸ hstep).keeps_refused_of_seq inv⟩

end Sys2Proof.Machine

/-! SUPPORT. The status of the sequencer (45_sequencer.md R139, R141, R152). -/

namespace Sys2Proof.Machine

variable {s t : State} {i : Instr} {turn : Turn}

/-- A step that moves the status is the first write of "on" outside a run, or SEQ's RET in one. -/
theorem StepTo.status_moved (h : StepTo s turn t) (moved : t.seq.status ≠ s.seq.status) :
    (s.seq.status ≠ .running ∧ s.seq.ranOnce = false ∧ t.seq.status = .running ∧ turn = .host (.write onPayload)) ∨
    (s.seq.status = .running ∧ t.seq.status = .done ∧ turn = .seq ∧
      ∃ q, fetch s = some q ∧ decodeSeq q = .ok .ret) := by
  cases h with
  | seqExec q _ _ running _ hf hd hx =>
    obtain ⟨-, hsame | ⟨rfl, hdone⟩⟩ := hx.status_cases
    · exact absurd hsame moved
    · exact .inr ⟨running, hdone, rfl, q, hf, hd⟩
  | portExec _ _ _ _ _ hi hx =>
    obtain ⟨-, hsame | ⟨rfl, -⟩⟩ := hx.status_cases
    · exact absurd hsame moved
    · cases hi
  | hostStart idle first => exact .inl ⟨idle, first, rfl, rfl⟩
  | _ => exact absurd rfl moved

/-- Settles O55: of the two moves the first starts at IDLE, since the run flag is still clear. -/
theorem statusMovesOnlyForward : Obligations.StatusMovesOnlyForward := by
  intro s t inv h moved
  obtain ⟨ran, -, -⟩ := inv
  obtain ⟨-, first, hrunning, turn⟩ | seqRet := (step_to h).status_moved moved
  · have idle : s.seq.status = .idle := by
      by_contra left
      exact absurd (ran.2 left) (by simpa using first)
    exact .inl ⟨idle, hrunning, turn⟩
  · exact .inr seqRet

end Sys2Proof.Machine

/-! SUPPORT. The register operations of the sequencer (45_sequencer.md R135 to R138): their words, and one execution of
each. -/

namespace Sys2Proof.Machine

variable {s : State} {i : Instr} {r : Reg} {m v : Word}

/-! ### The words -/

/-- The first word of a register operation as a number: its code at the top, the offset below it (R73). -/
theorem seqW0_register (opc off : BitVec 8) :
    seqW0 opc off 0 = BitVec.ofNat 32 (opc.toNat * 2 ^ 24 + off.toNat * 2 ^ 16) := by
  apply BitVec.eq_of_toNat_eq
  rw [Laws.EncodedForm.seqW0_toNat]
  simp only [BitVec.ofNat_eq_ofNat, BitVec.toNat_ofNat]
  omega

/-- A sequencer operation that is encoded with an offset decodes from its words written as numbers. -/
theorem decodeSeq_register {opc : BitVec 8} (henc : encode i = .seq96 ⟨seqW0 opc r.off 0, m, v⟩)
    (seq : i.isSeq = true) (wf : i.wf = true) :
    decodeSeq ⟨BitVec.ofNat 32 (opc.toNat * 2 ^ 24 + r.off.toNat * 2 ^ 16), m, v⟩ = .ok i := by
  rw [← seqW0_register]
  have decoded := decode_encode_of_seq seq wf
  rwa [henc] at decoded

/-! ### RD -/

theorem exec_rd_of_pending (pending : s.wbuf ≠ []) (r : Reg) : exec (.rd r) s = .next s := by
  simp [exec, execRd, pending]

theorem exec_rd_of_empty (empty : s.wbuf = []) (r : Reg) : exec (.rd r) s = .next (busRead r s).2.advance := by
  simp [exec, execRd, empty]

/-- Settles O33: RD is the read transaction, and pc advances. -/
theorem sequencerRead : Obligations.SequencerRead := fun _ r =>
  ⟨decodeSeq_register (i := .rd r) (opc := 0x01#8) rfl rfl rfl, fun pending => exec_rd_of_pending pending r,
    fun empty => ⟨_, exec_ofRead_of_empty empty r, rfl, exec_rd_of_empty empty r⟩⟩

/-! ### WR -/

theorem exec_wr_of_room (room : s.wbuf.length < s.par.wbufDepth) (r : Reg) (v : Word) :
    exec (.wr r v) s = .next (s.post r v).advance := by
  simp [exec, execWr, (wbufFull_eq_false_iff s).2 room]

theorem exec_wr_of_full (full : s.par.wbufDepth ≤ s.wbuf.length) (r : Reg) (v : Word) : exec (.wr r v) s = .next s := by
  simp [exec, execWr, (wbufFull_iff s).2 full]

/-- Settles O34: WR posts its write while the buffer has room. -/
theorem sequencerWrite : Obligations.SequencerWrite := fun _ r v =>
  ⟨decodeSeq_register (i := .wr r v) (opc := 0x02#8) rfl rfl rfl, fun room => exec_wr_of_room room r v,
    fun full => exec_wr_of_full full r v⟩

/-! ### MODIFY -/

theorem exec_modify_of_wait (wait : s.wbuf ≠ [] ∨ s.par.wbufDepth ≤ s.wbuf.length) (r : Reg) (m v : Word) :
    exec (.modify r m v) s = .next s := by
  have stay : ¬ (s.wbuf = [] ∧ wbufFull s = false) := by
    rw [wbufFull_eq_false_iff]
    exact fun ⟨empty, room⟩ => wait.elim (absurd empty) (Nat.not_le_of_lt room)
  simp only [exec, execModify, if_neg stay]

theorem exec_modify_of_empty (empty : s.wbuf = []) (r : Reg) (m v : Word) :
    exec (.modify r m v) s = .next ((busRead r s).2.post r (merge (busRead r s).1 m v)).advance := by
  simp only [exec, execModify, if_pos (And.intro empty (wbufFull_of_empty empty))]

/-- Settles O35: with nothing posted there is room, so both halves are done: the read, and the one posted write of the
merged word. -/
theorem sequencerModify : Obligations.SequencerModify := by
  intro s r m v
  refine ⟨decodeSeq_register (i := .modify r m v) (opc := 0x03#8) rfl rfl rfl,
    fun wait => exec_modify_of_wait wait r m v, fun empty => ?_⟩
  refine ⟨_, (busRead r s).1, merge (busRead r s).1 m v, exec_ofRead_of_empty empty r, rfl,
    fun _ => getLsbD_merge _ m v, ?_⟩
  have posted : (busRead r s).2.wbuf ++ [(r, merge (busRead r s).1 m v)] = [(r, merge (busRead r s).1 m v)] := by
    simp [busRead_eq, empty]
  rw [exec_modify_of_empty empty, ← posted]
  rfl

/-! ### POLL -/

theorem exec_poll_of_pending (pending : s.wbuf ≠ []) (r : Reg) (m v : Word) : exec (.poll r m v) s = .next s := by
  simp [exec, execPoll, pending]

theorem exec_poll_of_empty (empty : s.wbuf = []) (r : Reg) (m v : Word) :
    exec (.poll r m v) s = .next { (busRead r s).2 with
      seq := { s.seq with pc := if (busRead r s).1 &&& m = v then s.seq.pc + 1 else s.seq.pc } } := by
  simp only [exec, execPoll, if_pos empty]
  split <;> rfl

/-- Settles O36: POLL is the read transaction, and the word it reads decides whether pc advances. -/
theorem sequencerPoll : Obligations.SequencerPoll := fun s r m v =>
  ⟨decodeSeq_register (i := .poll r m v) (opc := 0x04#8) rfl rfl rfl, fun pending => exec_poll_of_pending pending r m v,
    fun empty => ⟨_, (busRead r s).1, exec_ofRead_of_empty empty r, rfl, exec_poll_of_empty empty r m v⟩⟩

/-- A masked word has no bit outside the mask. -/
theorem masked_ne_of_bit_outside (outside : v &&& ~~~m ≠ 0#32) (w : Word) : w &&& m ≠ v := by
  rintro rfl
  exact outside (by simp [BitVec.and_assoc])

/-- Settles O37: no masked word has a bit outside MASK, and every word masked by 0 is 0. -/
theorem pollThatCannotMatchSpins : Obligations.PollThatCannotMatchSpins := by
  refine fun s r m v => ⟨fun outside => ?_, fun empty => ⟨_, exec_poll_of_empty empty r 0#32 0#32, ?_⟩⟩
  · by_cases empty : s.wbuf = []
    · exact ⟨_, exec_poll_of_empty empty r m v, by rw [if_neg (masked_ne_of_bit_outside outside _)]⟩
    · exact ⟨_, exec_poll_of_pending empty r m v, rfl⟩
  · rw [if_pos BitVec.and_zero]

/-! ### POLL of a LOCK bit -/

theorem readWord_cfg0Reg (p : PllId) (b : Block) (d : Word) : readWord (cfg0Reg p) b d = cfg0Word (b.pll p) d := by
  cases p <;> rfl

theorem and_topBit_eq_iff (w : Word) : w &&& 0x80000000#32 = 0x80000000#32 ↔ w.getLsbD 31 = true := by
  change w &&& BitVec.twoPow 32 31 = BitVec.twoPow 32 31 ↔ _
  rw [BitVec.and_twoPow]
  cases w.getLsbD 31 <;> decide

/-- The POLL of the LOCK bit of a PLL that is not bypassed advances pc exactly if the PLL is locked (R99, R160). -/
theorem exec_lockPoll (empty : s.wbuf = []) {p : PllId} (plain : (s.block.pll p).bypass = false) :
    ∃ t, exec (.poll (cfg0Reg p) 0x80000000#32 0x80000000#32) s = .next t ∧
      t.seq.pc = if (s.block.pll p).lock = true then s.seq.pc + 1 else s.seq.pc := by
  have lockBit : (busRead (cfg0Reg p) s).1.getLsbD 31 = (s.block.pll p).lock := by
    rw [busRead_eq, readWord_cfg0Reg, cfg0Word_lock, plain]
    rfl
  refine ⟨_, exec_poll_of_empty empty .., ?_⟩
  simp only [and_topBit_eq_iff, lockBit]

/-- Settles O60: the detector's step sets LOCK and leaves the sequencer and the buffer. -/
theorem lockPollWaitsForDetector : Obligations.LockPollWaitsForDetector := by
  intro s p empty plain unlocked r
  have hr : r = cfg0Reg p := by cases p <;> rfl
  rw [hr]
  constructor
  · obtain ⟨t, hexec, hpc⟩ := exec_lockPoll empty plain
    exact ⟨t, hexec, by rw [hpc, unlocked]; rfl⟩
  · intro ready lockable turn
    have go : pllEnabled p s.block = true := (pllEnabled_iff p s.block).2 ⟨unlocked, plain, ready, lockable⟩
    obtain ⟨t, hexec, hpc⟩ := exec_lockPoll (p := p)
      (s := s.endTurn.withBlock (s.block.setPll p { s.block.pll p with lock := true })) empty (by simp [plain])
    refine ⟨_, t, ?_, hexec, by simpa using hpc⟩
    rw [step_of_turn_pll turn, pllStep_of_enabled (s := s.endTurn) go]
    rfl

end Sys2Proof.Machine

/-! SUPPORT. SEQ's turn (45_sequencer.md R134, R140; 60_exceptions.md R165). -/

namespace Sys2Proof.Machine

variable {s : State}

theorem seqEnabled_iff (s : State) : seqEnabled s = true ↔ s.seq.status = .running ∧ s.refused = none := by
  simp [seqEnabled]

theorem seqStep_of_not_enabled (stay : s.seq.status ≠ .running ∨ s.refused ≠ none) : seqStep s = .next s := by
  refine if_neg fun go => ?_
  obtain ⟨running, clear⟩ := (seqEnabled_iff s).1 go
  exact stay.elim (absurd running) (absurd clear)

theorem seqStep_of_outside (running : s.seq.status = .running) (clear : s.refused = none) (hf : fetch s = none) :
    seqStep s = .next (s.refuse .pcOutOfRange) := by
  simp [seqStep, seqEnabled, running, clear, hf]

theorem seqStep_of_error {q : SeqWords} {e : RefuseReason} (running : s.seq.status = .running)
    (clear : s.refused = none) (hf : fetch s = some q) (hd : decodeSeq q = .error e) :
    seqStep s = .next (s.refuse e) := by
  simp [seqStep, seqEnabled, running, clear, hf, hd]

/-- Settles O8: SEQ's step from the state with the turn used up, in which SEQ stands where it stood. -/
theorem stepRunsFetchedOperation : Obligations.StepRunsFetchedOperation := by
  intro s q i turn running clear hf hd
  rw [step_of_turn_seq turn]
  exact seqStep_of_fetch (s := s.endTurn) running clear hf hd

/-- Settles O9: the other three cases of SEQ's step. -/
theorem sequencerRefusalsInStep : Obligations.SequencerRefusalsInStep := by
  intro s turn
  rw [step_of_turn_seq turn]
  exact ⟨fun stay => seqStep_of_not_enabled (s := s.endTurn) stay,
    fun running clear outside => seqStep_of_outside (s := s.endTurn) running clear (List.getElem?_eq_none outside),
    fun _ _ running clear hf hd => seqStep_of_error (s := s.endTurn) running clear hf hd⟩

end Sys2Proof.Machine

/-! SUPPORT. The host's turns (45_sequencer.md section 5). -/

namespace Sys2Proof.Machine

variable {s : State} {op : HostOp}

theorem step_of_turn_host (turn : turnOf s = .host op) : step s = .next (hostStep op s.endTurn) := by
  rw [step_eq, turn]; rfl

theorem hostEnabled_iff (s : State) : hostEnabled s = true ↔ s.seq.status ≠ .running ∧ s.hostPending = false := by
  simp [hostEnabled]

theorem hostStep_of_not_enabled (stay : s.seq.status = .running ∨ s.hostPending = true) (op : HostOp) :
    hostStep op s = s := by
  refine if_neg fun go => ?_
  obtain ⟨idle, returned⟩ := (hostEnabled_iff s).1 go
  simp [idle, returned] at stay

/-- What an operation other than the write of "on" returns (R150 to R153). -/
def hostResult : HostOp → HostResult
  | .init => .okUnit
  | .read => .errNotImplemented
  | .shutdown => .okUnit
  | .write _ => .ok 0

theorem hostStep_of_other (go : hostEnabled s = true) (other : op ≠ .write onPayload) :
    hostStep op s = s.log (.host op (hostResult op)) := by
  cases op with
  | write payload =>
    have off : payload ≠ onPayload := fun h => other (h ▸ rfl)
    simp [hostStep, go, off, hostResult]
  | init | read | shutdown => simp [hostStep, go, hostResult]

theorem hostStep_on_of_first (go : hostEnabled s = true) (first : s.seq.ranOnce = false) :
    hostStep (.write onPayload) s = { s with
      seq := { s.seq with ranOnce := true, pc := 0, status := .running }, hostPending := true } := by
  simp [hostStep, go, first]

theorem hostStep_on_of_again (go : hostEnabled s = true) (again : s.seq.ranOnce = true) :
    hostStep (.write onPayload) s = s.refuse .reinit := by
  simp [hostStep, go, again]

/-- Settles O16: the host's step from the state with the turn used up, with the result of each operation. -/
theorem hostOperationsWithoutEffect : Obligations.HostOperationsWithoutEffect := by
  intro s op turn other
  rw [step_of_turn_host turn]
  constructor
  · intro idle returned
    rw [hostStep_of_other (s := s.endTurn) ((hostEnabled_iff _).2 ⟨idle, returned⟩) other]
    cases op <;> rfl
  · intro stay
    rw [hostStep_of_not_enabled (s := s.endTurn) stay]
    rfl

/-- Settles O17: the run flag tells the first write of "on" from a later one. -/
theorem hostWriteOnStartsOnce : Obligations.HostWriteOnStartsOnce := by
  intro s turn
  rw [step_of_turn_host turn]
  have enabled := (hostEnabled_iff s.endTurn).2
  exact ⟨fun idle returned first => congrArg _ (hostStep_on_of_first (s := s.endTurn) (enabled ⟨idle, returned⟩) first),
    fun idle returned again => congrArg _ (hostStep_on_of_again (s := s.endTurn) (enabled ⟨idle, returned⟩) again),
    fun stay => congrArg _ (hostStep_of_not_enabled (s := s.endTurn) stay _)⟩

theorem step_of_turn_hostReturn (turn : turnOf s = .hostReturn) : step s = .next (hostReturnStep s.endTurn) := by
  rw [step_eq, turn]; rfl

/-- R156's end of the run, with the observation line by line. -/
theorem runOver_iff (s : State) :
    runOver s = true ↔ s.seq.status = .done ∧ s.wbuf = [] ∧ ∀ x, s.block.obs.get x = s.block.rst.get x := by
  simp [runOver, allObserved_iff, and_assoc]

theorem hostReturnStep_of_ended (pending : s.hostPending = true) (ended : runOver s = true) :
    hostReturnStep s = { s.log (.host (.write onPayload) (.ok 1)) with hostPending := false } := by
  simp [hostReturnStep, pending, ended]

theorem hostReturnStep_of_not_due (stay : ¬ (s.hostPending = true ∧ runOver s = true)) : hostReturnStep s = s := by
  rw [← Bool.and_eq_true] at stay
  exact if_neg stay

/-- Settles O18: the return of a pending write waits for R156's end of the run. -/
theorem hostWriteReturnsAtEndOfRun : Obligations.HostWriteReturnsAtEndOfRun := by
  intro s turn ended
  rw [step_of_turn_hostReturn turn]
  have atEnd : runOver s.endTurn = true ↔ ended := runOver_iff s.endTurn
  rw [← atEnd]
  exact ⟨fun pending due => congrArg _ (hostReturnStep_of_ended (s := s.endTurn) pending due),
    fun stay => congrArg _ (hostReturnStep_of_not_due (s := s.endTurn) stay)⟩

end Sys2Proof.Machine

/-! SUPPORT. NOTIFY, EXIT_IF_EMU and RET (45_sequencer.md R139, R142, R144). -/

namespace Sys2Proof.Machine

/-- Settles O43: the new events are the image of the consumer list. -/
theorem notifyEveryConsumerInOrder : Obligations.NotifyEveryConsumerInOrder := by
  refine ⟨fun rate => decode_encode_of_seq (i := .notify rate) rfl rfl, fun s rate => ?_⟩
  refine ⟨s.launch.consumers.map (Event.notify · rate), rfl, List.length_map .., fun k c hc => ?_⟩
  rw [List.getElem?_map, hc]
  rfl

/-- Settles O44: the meaning of EXIT_IF_EMU is the statement's next state, which reads the launch alone. -/
theorem exitIfEmulated : Obligations.ExitIfEmulated :=
  ⟨decode_encode_of_seq (i := .exitIfEmu) rfl rfl, fun _ => rfl⟩

/-- Settles O45: the meaning of RET is the statement's next state. -/
theorem retEndsTheRun : Obligations.RetEndsTheRun :=
  ⟨decode_encode_of_seq (i := .ret) rfl rfl, fun _ => rfl⟩

end Sys2Proof.Machine

/-! SUPPORT. The fault records and the transactions they name (60_exceptions.md R161), and that no step stops (R167, R168). -/

namespace Sys2Proof.Machine

variable {s t : State} {i : Instr} {turn : Turn}

/-- The history holds, at the record's index, the record's own transaction (R161). -/
def FaultRec.namedIn (es : List Event) (f : FaultRec) : Prop :=
  es[f.index]? = some (.read f.reg f.value) ∨ es[f.index]? = some (.write f.reg f.value)

theorem faultsInv_iff (s : State) : faultsInv s ↔ (∀ f ∈ s.faults, f.namedIn s.events) ∧ s.faults.Nodup := Iff.rfl

/-- An event that the history holds stays at its index as the history grows (R31). -/
theorem getElem?_events_of_prefix {es es' : List Event} {k : Nat} {e : Event} (grown : es <+: es')
    (held : es[k]? = some e) : es'[k]? = some e := by
  obtain ⟨inRange, rfl⟩ := List.getElem?_eq_some_iff.1 held
  exact List.prefix_iff_getElem?.1 grown k inRange

theorem FaultRec.namedIn_of_prefix {es es' : List Event} {f : FaultRec} (grown : es <+: es') (named : f.namedIn es) :
    f.namedIn es' :=
  named.imp (getElem?_events_of_prefix grown) (getElem?_events_of_prefix grown)

/-- What becomes of the faults and the history together: no fault is added, or reasons are recorded for a transaction that
is appended to the history. -/
def recordsOwnEvent (s t : State) : Prop :=
  t.faults = s.faults ∨ ∃ why r v e, (e = .read r v ∨ e = .write r v) ∧
    t.faults = (s.raise why r v).faults ∧ t.events = s.events ++ [e]

/-- Only a performed read and a performed write record faults, each for its own event (R161; log 13). -/
theorem ExecTo.recordsOwnEvent (h : ExecTo s i t) : recordsOwnEvent s t := by
  cases h with
  | read _ r | modify r => exact .inr ⟨readHazards r, r, _, _, .inl rfl, rfl, rfl⟩
  | write r v => exact .inr ⟨_, r, v, _, .inr rfl, rfl, rfl⟩
  | _ => exact .inl rfl

theorem StepTo.recordsOwnEvent (h : StepTo s turn t) : recordsOwnEvent s t := by
  cases h with
  | seqExec _ _ _ _ _ _ _ hx | portExec _ _ _ _ _ _ hx => exact hx.recordsOwnEvent
  | bus r v _ _ => exact .inr ⟨_, r, v, _, .inr rfl, rfl, rfl⟩
  | _ => exact .inl rfl

/-- The records made for a transaction hold the index at which its event is appended. -/
theorem namedIn_of_mem_raise {why : List HazardReason} {r : Reg} {v : Word} {e : Event} (he : e = .read r v ∨ e = .write r v)
    (named : ∀ f ∈ s.faults, f.namedIn s.events) {f : FaultRec} (hf : f ∈ (s.raise why r v).faults) :
    f.namedIn (s.events ++ [e]) := by
  rcases (mem_raise_faults s why r v f).1 hf with old | ⟨rfl, rfl, hindex, -⟩
  · exact FaultRec.namedIn_of_prefix (List.prefix_append ..) (named f old)
  · have own : (s.events ++ [e])[f.index]? = some e := by rw [hindex, List.getElem?_concat_length]
    unfold FaultRec.namedIn
    rw [own]
    exact he.imp (congrArg some) (congrArg some)

/-- Old records keep naming the events they named, and new ones name the event appended with them. -/
theorem faultsInv_of_recordsOwnEvent (grown : s.events <+: t.events) (h : recordsOwnEvent s t)
    (inv : faultsInv s) : faultsInv t := by
  rw [faultsInv_iff] at *
  obtain ⟨named, nodup⟩ := inv
  rcases h with hfaults | ⟨why, r, v, e, he, hfaults, hevents⟩ <;> rw [hfaults]
  · exact ⟨fun f hf => FaultRec.namedIn_of_prefix grown (named f hf), nodup⟩
  · rw [hevents]
    exact ⟨fun _ hf => namedIn_of_mem_raise he named hf, nodup_raise_faults nodup why r v⟩

theorem StepTo.keeps_faultsInv (h : StepTo s turn t) (inv : faultsInv s) : faultsInv t := by
  obtain ⟨grown, -, -⟩ := h.keeps_records
  exact faultsInv_of_recordsOwnEvent grown h.recordsOwnEvent inv

/-- Settles O52: the history only grows, and a step that adds fault records appends the transaction they name. -/
theorem everyStepKeepsFaultRecords : Obligations.EveryStepKeepsFaultRecords :=
  fun _ _ inv h => (step_to h).keeps_faultsInv inv

/-- Settles O53: the turn of every agent answers a next state, be it a hold. -/
theorem machineNeverStops : Obligations.MachineNeverStops := by
  intro s
  obtain ⟨t, answered, -⟩ := agent_to (turnOf s) s.endTurn
  exact ⟨t, (step_eq s).trans answered⟩

end Sys2Proof.Machine
